-- ==== Sys2Proof/Word.lean ====
section
/-! DEFINITION. The two value types of the engine: the 64-bit word of rule R11 and the 8-bit byte of a snapshot image.
Word arithmetic is BitVec's own: `+`, `-`, `*` wrap modulo 2^64 (rules R110, R111, R112), `^^^`, `&&&`, `|||` are bitwise
(rule R113), `>>>` and `<<<` are the logical shifts of rules R114 and R115. -/

namespace Sys2Proof

/-- A word: an unsigned integer in [0, 2^64), bit 0 the least significant (rule R11). -/
abbrev Word := BitVec 64

/-- A byte: a number in [0, 255] (rules R11, R52). -/
abbrev Byte := BitVec 8

end Sys2Proof
end

