-- ==== Sys2Proof/Config.lean ====
section
/-! DEFINITION. The two OPEN parameters of the spec (rule R10): the greatest key SEEDM and the greatest operand LOAD accept. A
model "takes the named parameter as an argument" (92_eei_decisions.md), so each rests on a constant without a body, and what is
said of the machine holds for every value the spec allows it. Log entry 1. -/

namespace Sys2Proof

/-- What an implementation chooses for KEYLEN_MAX (rule R10, D7): any number; nothing is known of it. -/
opaque Config.keylenChoice : Nat

/-- What an implementation chooses for LOADLEN_MAX (rule R10, D23): any number; nothing is known of it. -/
opaque Config.loadlenChoice : Nat

/-- KEYLEN_MAX, the greatest key length in words that SEEDM accepts: the choice, "at least 16" (rule R10), and below 2^64, since
the rules are valid "for any finite length below 2^64" (D7). -/
def Config.keylenMax : Nat := max 16 (min Config.keylenChoice 0xFFFFFFFFFFFFFFFF)

/-- LOADLEN_MAX, the greatest operand length in bytes that LOAD can be handed: the choice, "at least 2499" (rule R10, D23). -/
def Config.loadlenMax : Nat := max 2499 Config.loadlenChoice

/-- KEYLEN_MAX admits every key of up to 16 words. -/
theorem Config.keylenMax_ge : 16 ≤ Config.keylenMax := Nat.le_max_left _ _

/-- KEYLEN_MAX is a length the rules are valid for. -/
theorem Config.keylenMax_lt : Config.keylenMax < 2 ^ 64 := by
  unfold Config.keylenMax
  omega

/-- LOADLEN_MAX admits every operand of up to 2499 bytes, a full image among them. -/
theorem Config.loadlenMax_ge : 2499 ≤ Config.loadlenMax := Nat.le_max_left _ _

end Sys2Proof
end

