-- ==== Sys2Proof/Syntax.lean ====
section
/-! DEFINITION. The engine's commands (rules R3, R80): one constructor per row of spec/opcode_table.json, with the operand
that the row's format carries (rule R81). TWIST and TEMPER are internal operations, not commands (rule R80). -/

namespace Sys2Proof

/-- A command. RESERVED6 and RESERVED7 are the two values of the 3-bit op field that select no command (rule R91). -/
inductive Instr where
  /-- SEED, op 0, format CMD-W: one 64-bit word (rules R132, R85). -/
  | seed (word : Word)
  /-- SEEDM, op 1, format CMD-K: an ordered sequence of 64-bit words (rules R136, R86). -/
  | seedm (key : List Word)
  /-- NEXT64, op 2, format CMD-N (rule R170). -/
  | next64
  /-- NEXT63, op 3, format CMD-N (rule R174). -/
  | next63
  /-- SAVE, op 4, format CMD-N (rule R185). -/
  | save
  /-- LOAD, op 5, format CMD-B: a byte sequence of any length (rules R186, R87). -/
  | load (img : List Byte)
  /-- op 6, which selects no command (rule R91). -/
  | reserved6
  /-- op 7, which selects no command (rule R91). -/
  | reserved7
  deriving DecidableEq, Repr

end Sys2Proof
end

