-- ==== Sys2Proof/WellFormed.lean ====
section
/-! DEFINITION. Two checks on a command's operand. `wf`: its length is one the rules are valid for, and can be written in the
byte form of log entry 2. `admitted`: it lies within the OPEN bounds. "Every other operand value of every command is legal"
(rule R92), so there is no further check. -/

namespace Sys2Proof

/-- The operand's length is below 2^64 (D7: "valid for any finite length below 2^64"; log entry 2 writes it in 8 bytes). -/
def Instr.wf : Instr → Bool
  | .seed _ => true
  | .seedm key => decide (key.length < 2 ^ 64)
  | .next64 => true
  | .next63 => true
  | .save => true
  | .load img => decide (img.length < 2 ^ 64)
  | .reserved6 => true
  | .reserved7 => true

/-- The operand lies within KEYLEN_MAX and LOADLEN_MAX (rules R86, R92). -/
def Instr.admitted : Instr → Bool
  | .seed _ => true
  | .seedm key => decide (key.length ≤ Config.keylenMax)
  | .next64 => true
  | .next63 => true
  | .save => true
  | .load img => decide (img.length ≤ Config.loadlenMax)
  | .reserved6 => true
  | .reserved7 => true

end Sys2Proof
end

