-- ==== Sys2Proof/Decode.lean ====
section
/-! DEFINITION. From bytes to a command and back. The op numbers are rule R82's, the formats rule R81's. How a command's
fields travel is not fixed by the spec (rule R81: "is not fixed"; D1): this model presents a command as bytes, the op in
bits 2:0 of the first byte with bits 7:3 zero, then the operand's fields in rule R81's order, a word as 8 bytes and a length
(klen, blen) as 8 bytes, least significant byte first. DESIGN CHOICE, log entry 2. -/

namespace Sys2Proof

/-- Why a byte sequence is not a whole command. -/
inductive DecodeError where
  /-- There is no byte at all. -/
  | noBytes
  /-- Bits 7:3 of the op byte are not zero: the byte is not a value of the 3-bit op field (log entry 2). -/
  | opPadding
  /-- The bytes end before the operand that op and klen or blen announce (rule R93). -/
  | truncated
  deriving DecidableEq, Repr

/-- `v` as `n` bytes, least significant first (rule R52). -/
def leBytes : Nat → Nat → List Byte
  | 0, _ => []
  | n + 1, v => BitVec.ofNat 8 v :: leBytes n (v / 256)

/-- The number a byte sequence stands for, least significant byte first: the sum of `b_k * 2^(8k)` (rules R52, R53). -/
def leValue : List Byte → Nat
  | [] => 0
  | b :: bs => b.toNat + 256 * leValue bs

/-- The first `n` 8-byte words of a byte sequence, in order. -/
def leWords : Nat → List Byte → List Word
  | 0, _ => []
  | n + 1, bs => BitVec.ofNat 64 (leValue (bs.take 8)) :: leWords n (bs.drop 8)

/-- `leWords n` gives `n` words. -/
theorem leWords_length (n : Nat) (bs : List Byte) : (leWords n bs).length = n := by
  induction n generalizing bs with
  | zero => rfl
  | succ n ih => exact congrArg (· + 1) (ih (bs.drop 8))

/-- Format CMD-W after the op byte: word[63:0] (rule R81). -/
def decodeWordForm (bs : List Byte) : Except DecodeError (Instr × List Byte) :=
  if 8 ≤ bs.length then
    .ok (.seed (BitVec.ofNat 64 (leValue (bs.take 8))), bs.drop 8)
  else .error .truncated

/-- Format CMD-K after the op byte: klen, then klen words (rule R81). -/
def decodeKeyForm (bs : List Byte) : Except DecodeError (Instr × List Byte) :=
  if 8 ≤ bs.length then
    if 8 * leValue (bs.take 8) ≤ (bs.drop 8).length then
      .ok (.seedm (leWords (leValue (bs.take 8)) (bs.drop 8)), (bs.drop 8).drop (8 * leValue (bs.take 8)))
    else .error .truncated
  else .error .truncated

/-- Format CMD-B after the op byte: blen, then blen bytes (rule R81). -/
def decodeBytesForm (bs : List Byte) : Except DecodeError (Instr × List Byte) :=
  if 8 ≤ bs.length then
    if leValue (bs.take 8) ≤ (bs.drop 8).length then
      .ok (.load ((bs.drop 8).take (leValue (bs.take 8))), (bs.drop 8).drop (leValue (bs.take 8)))
    else .error .truncated
  else .error .truncated

/-- The command that op number `op` selects, with its operand read from the bytes after op: `op` alone fixes the format (rules
R82, R93). A number of 8 or more is no value of the 3-bit field. -/
def decodeOp (op : Nat) (bs : List Byte) : Except DecodeError (Instr × List Byte) :=
  match op with
  | 0 => decodeWordForm bs
  | 1 => decodeKeyForm bs
  | 2 => .ok (.next64, bs)
  | 3 => .ok (.next63, bs)
  | 4 => .ok (.save, bs)
  | 5 => decodeBytesForm bs
  | 6 => .ok (.reserved6, bs)
  | 7 => .ok (.reserved7, bs)
  | _ => .error .opPadding

/-- The command at the front of a byte sequence and the bytes after it. -/
def decode : List Byte → Except DecodeError (Instr × List Byte)
  | [] => .error .noBytes
  | b :: bs => decodeOp b.toNat bs

/-- The op number of a command (rule R82). -/
def opcode : Instr → BitVec 3
  | .seed _ => 0#3
  | .seedm _ => 1#3
  | .next64 => 2#3
  | .next63 => 3#3
  | .save => 4#3
  | .load _ => 5#3
  | .reserved6 => 6#3
  | .reserved7 => 7#3

/-- The fields after op, in rule R81's order. -/
def encodeOperand : Instr → List Byte
  | .seed word => leBytes 8 word.toNat
  | .seedm key => leBytes 8 key.length ++ key.flatMap fun w => leBytes 8 w.toNat
  | .next64 => []
  | .next63 => []
  | .save => []
  | .load img => leBytes 8 img.length ++ img
  | .reserved6 => []
  | .reserved7 => []

/-- The bytes a command is presented as: op, then its operand (rules R81, R82, R96). -/
def encode (i : Instr) : List Byte :=
  (opcode i).zeroExtend 8 :: encodeOperand i

/-- The bytes of an opcode-table word: `nbits` bits of `w`, least significant byte first, followed by zero bytes up to the
9 bytes of the longest command whose operand bits are all zero (op and one 8-byte field). -/
def tableBytes (nbits w : Nat) : List Byte :=
  leBytes (max ((nbits + 7) / 8) 9) (w % 2 ^ nbits)

/-- The bytes of the one command at the front of an opcode-table word (all of them where there is none). -/
def tableCommand (nbits w : Nat) : List Byte :=
  match decode (tableBytes nbits w) with
  | .ok (_, rest) => (tableBytes nbits w).take ((tableBytes nbits w).length - rest.length)
  | .error _ => tableBytes nbits w

/-- The command the decoder reads from an opcode-table word. -/
def decodeTableWord (nbits w : Nat) : Option Instr :=
  match decode (tableBytes nbits w) with
  | .ok (i, _) => some i
  | .error _ => none

end Sys2Proof
end

