-- ==== Sys2Proof/Machine/Constants.lean ====
section
/-! DEFINITION. The hardwired constants of rules R8 and R9. They are no state: no command reads them out or changes them
(rule R31). The sizes 312 (NN), 156 (MM) and 2498 (IMG_LEN) stand as numerals where the spec's pseudocode writes them so. -/

namespace Sys2Proof.Machine

/-- UPPER_MASK, the high 33 bits (rule R8). -/
def upperMask : Word := 0xFFFFFFFF80000000#64

/-- LOWER_MASK, the low 31 bits (rule R8). -/
def lowerMask : Word := 0x000000007FFFFFFF#64

/-- MATRIX_A (rule R8). -/
def matrixA : Word := 0xB5026F5AA96619E9#64

/-- SEED_MULT (rule R9). -/
def seedMult : Word := 6364136223846793005#64

/-- SEED_SHIFT (rule R9). -/
def seedShift : Nat := 62

/-- BOOT_SEED (rule R9). -/
def bootSeed : Word := 19650218#64

/-- KEY_MULT1 (rule R9). -/
def keyMult1 : Word := 3935559000370003845#64

/-- KEY_MULT2 (rule R9). -/
def keyMult2 : Word := 2862933555777941757#64

/-- TOP_BIT, 2^63 (rule R9). -/
def topBit : Word := 9223372036854775808#64

/-- DEFAULT_SEED (rule R9). -/
def defaultSeed : Word := 5489#64

/-- TEMPER_D, the mask of TEMPER's first stage (rule R9). -/
def temperD : Word := 0x5555555555555555#64

/-- TEMPER_B, the mask of TEMPER's second stage (rule R9). -/
def temperB : Word := 0x71D67FFFEDA60000#64

/-- TEMPER_C, the mask of TEMPER's third stage (rule R9). -/
def temperC : Word := 0xFFF7EEE000000000#64

/-- IMG_LEN, the length of a full image (rule R9). -/
def imgLen : Nat := 2498

/-- IMG_IDX_OFF, the offset of the index field (rule R9). -/
def imgIdxOff : Nat := 2496

end Sys2Proof.Machine
end

