-- ==== Sys2Proof/Machine/State.lean ====
section
/-! DEFINITION. The state. The engine itself is the triple (MT, IDX, INIT) of rule R20 and nothing else. Beside it stand the
three pieces of the host interface that a step reads or writes (D1): the bytes the host presents, whether the host issued a
command too early, and the responses the host has been given. The last three are the model's own, log entries 2, 3 and 4. -/

namespace Sys2Proof.Machine

/-- The engine's whole architectural state (rule R20). -/
structure Engine where
  /-- MT, the 312 state words of 64 bits (rule R21). -/
  mt : Vector Word 312
  /-- IDX, the 16-bit cursor (rule R24). -/
  idx : BitVec 16
  /-- INIT, the engine's only flag (rule R27). -/
  init : Bool
  deriving DecidableEq, Repr

/-- The status field of a response (rule R84). -/
inductive Status where
  | ok
  | sizeMismatch
  | indexRange
  | emptyKey
  | illegalCommand
  deriving DecidableEq, Repr

/-- The payload of a response in the three formats of rule R83. -/
inductive Payload where
  /-- RSP-N: no payload. -/
  | none
  /-- RSP-W: value[63:0]. -/
  | word (value : Word)
  /-- RSP-B: rlen bytes; rlen is the list's length. -/
  | bytes (img : List Byte)
  deriving DecidableEq, Repr

/-- A response, the pair (status, payload) of rule R83. -/
structure Response where
  status : Status
  payload : Payload
  deriving DecidableEq, Repr

/-- Why the machine stops with a fault: never. The engine has no trap, and its errors are responses of the command that
failed, not faults (60_exceptions.md, rules R213, R222); so there is no constructor and nobody raises one. -/
inductive Fault
  deriving DecidableEq, Repr

/-- Why a step has no meaning. Every one of these is safe: the model stops where the spec defines no step (rule R222). -/
inductive Refusal where
  /-- Raised by `exec` alone, for an instruction without a meaning yet; safe. No arm of this model raises it. -/
  | notModelled (mnemonic : String)
  /-- Raised by the fetch: the host issued another command before the engine answered the one before (rules R59, R245, D11:
  "this spec gives the pair no meaning"); safe. -/
  | overlappingCommands
  /-- Raised by the fetch: the first byte is no value of the 3-bit op field (log entry 2); safe. -/
  | malformedOp
  /-- Raised by the fetch: the bytes presented end inside the command's operand, so no whole command has been presented
  (rules R93, R87: the operand is "known in full before any byte is acted on"); safe. -/
  | incompleteCommand
  /-- Raised by SEEDM with a key longer than KEYLEN_MAX (rule R92: "refused, no response defined"); safe. -/
  | keyBeyondBound
  /-- Raised by LOAD with an operand longer than LOADLEN_MAX (rule R92: "refused, no response defined"); safe. -/
  | imageBeyondBound
  /-- Raised by every command when INIT = 1 and IDX is 313 or more, which no step produces (rules R26, R222 and
  93_implementation_defined.md U6: "`refuse` if ever met"); safe. -/
  | cursorOutOfRange
  deriving DecidableEq, Repr

/-- The machine's state. -/
structure State where
  /-- The engine (rule R20). -/
  engine : Engine
  /-- The host's commands that the engine has not performed yet, as bytes, in the order issued: each is taken up only after
  the one before has been answered (rule R59). -/
  inbox : List Byte
  /-- The host has issued a command while another was in progress (rules R59, R245): an input no step changes. -/
  overlap : Bool
  /-- The responses given so far, newest first: the host's record, which no command reads (rules R32, R216). -/
  responses : List Response
  deriving DecidableEq, Repr

/-- A fresh engine (rules R37, R38, R240): INIT = 0 and every MT word 0. IDX = 0 is the spec's decision D8 (rule R39). -/
def Engine.fresh : Engine :=
  { mt := Vector.replicate 312 0#64, idx := 0#16, init := false }

/-- The machine right after reset: a fresh engine, no command presented and no response given (rules R240, R241). -/
def State.reset : State :=
  { engine := Engine.fresh, inbox := [], overlap := false, responses := [] }

end Sys2Proof.Machine
end

