-- ==== Sys2Proof/Machine/Flags.lean ====
section
/-! DEFINITION. What is read from the cursor and the flag, and the numbers of the status field. The engine has no arithmetic
status flags: no command sets a carry, overflow, zero or sign flag (rule R29). INIT is the engine's only flag (rule R27). -/

namespace Sys2Proof.Machine

/-- EXH, the predicate IDX >= 312 on the full 16-bit register (rules R28, R119, D22). It is no state. -/
def exhausted (e : Engine) : Bool := decide (312 ≤ e.idx.toNat)

/-- The cursor is one the rules speak of: INIT = 0, where IDX cannot be observed (rule R40), or IDX at most 312 (rule R26). -/
def cursorLegal (e : Engine) : Bool := !e.init || decide (e.idx.toNat ≤ 312)

/-- The status numbers (rule R84). -/
def Status.code : Status → BitVec 3
  | .ok => 0#3
  | .sizeMismatch => 1#3
  | .indexRange => 2#3
  | .emptyKey => 3#3
  | .illegalCommand => 4#3

end Sys2Proof.Machine
end

