-- ==== Sys2Proof/Machine/Ops.lean ====
section
/-! DEFINITION. The named operations every meaning is built from (rule R13's primitives): reading and writing a state word,
the loop, reading and writing a field of an image, the serialization register view, answering with success, and answering with
an error. The engine has no memory and no addresses (rule R50): the image primitives work on operands and results. -/

namespace Sys2Proof.Machine

/-- Element `n` of a list, `d` past its end. Written with the recursors, which the kernel evaluates fastest; its equations
are `nth_nil`, `nth_zero` and `nth_succ` of Laws/Ops.lean. -/
def nth {α : Type} (d : α) (l : List α) (n : Nat) : α :=
  List.rec (motive := fun _ => Nat → α) (fun _ => d)
    (fun a _ ih n => Nat.casesOn (motive := fun _ => α) n a ih) l n

/-- A list with element `n` replaced, unchanged when `n` is past its end. Its equations are `setNth_nil`, `setNth_zero` and
`setNth_succ` of Laws/Ops.lean. -/
def setNth {α : Type} (l : List α) (n : Nat) (v : α) : List α :=
  List.rec (motive := fun _ => Nat → List α) (fun _ => [])
    (fun a as ih n => Nat.casesOn (motive := fun _ => List α) n (v :: as) (fun m => a :: ih m)) l n

/-- Replacing an element keeps the length, so that MT keeps its 312 words. -/
theorem setNth_length {α : Type} (l : List α) (n : Nat) (v : α) : (setNth l n v).length = l.length := by
  induction l generalizing n with
  | nil => rfl
  | cons a as ih =>
    cases n with
    | zero => rfl
    | succ m => exact congrArg (· + 1) (ih m)

/-- Read of `MT[n]` for a slot number `n` below 312 (rule R13); no rule reads any other. -/
def mtRead (mt : Vector Word 312) (n : Nat) : Word := nth 0#64 mt.toArray.toList n

/-- `MT[n] <- v` for a slot number `n` below 312 (rule R13); no rule writes any other. -/
def mtWrite (mt : Vector Word 312) (n : Nat) (v : Word) : Vector Word 312 :=
  ⟨⟨setNth mt.toArray.toList n v⟩, (setNth_length mt.toArray.toList n v).trans mt.size_toArray⟩

/-- `for i from first to first + count - 1`, upward; no iteration when `count` is 0 (rule R13). Irreducible, so that the
elaborator never unrolls a loop of 312 iterations; its equations are `forUp_zero` and `forUp_succ` of Laws/Ops.lean. -/
@[irreducible] def forUp {α : Type} (body : Nat → α → α) : (first count : Nat) → α → α
  | _, 0, a => a
  | first, count + 1, a => forUp body (first + 1) count (body first a)

/-- `repeat n times` (rule R13). Irreducible like `forUp`. -/
@[irreducible] def repeatTimes {α : Type} (body : α → α) : Nat → α → α
  | 0, a => a
  | n + 1, a => repeatTimes body n (body a)

/-- MemRead(addr, n) on a LOAD operand: the sum of `img[addr + b] * 2^(8b)` for `b` from 0 to `n - 1` (rule R53). -/
def memRead (img : List Byte) (addr n : Nat) : Nat := leValue ((img.drop addr).take n)

/-- MemWrite(addr, n, v) on a SAVE result: `img[addr + b] = v[8b+7 : 8b]` for `b` from 0 to `n - 1` (rule R54). -/
def memWrite (addr n v : Nat) (img : List Byte) : List Byte :=
  img.take addr ++ leBytes n v ++ img.drop (addr + n)

/-- Byte `SER[a]` of the serialization register file, a view of MT and IDX and no storage of its own (rule R33). -/
def serByte (e : Engine) (a : Nat) : Byte :=
  if a < 2496 then (mtRead e.mt (a / 8)).extractLsb' (8 * (a % 8)) 8
  else e.idx.extractLsb' (8 * (a - 2496)) 8

/-- The state after a command that leaves the engine `e` and gives the host its one response `r` (rules R59, R83). -/
def State.answered (s : State) (e : Engine) (r : Response) : State :=
  { s with engine := e, responses := r :: s.responses }

/-- The one way a command ends with a response. With INIT = 1 and IDX above 312, which no step produces, there is no step for
any command (rules R26, R222; 93_implementation_defined.md U6: "`refuse` if ever met"). -/
def respond (s : State) (e : Engine) (r : Response) : Host.Outcome State Fault Refusal :=
  if cursorLegal s.engine then .next (s.answered e r) else .refused .cursorOutOfRange

/-- `return`: the command ends with status OK and the given payload (rule R13). -/
def complete (s : State) (e : Engine) (p : Payload) : Host.Outcome State Fault Refusal :=
  respond s e { status := .ok, payload := p }

/-- `raise`: the one way this engine takes an exception (60_exceptions.md). The command ends with the error's status and no
payload (rules R214, R215); nothing is saved, no mode changes and control goes nowhere (rule R221); MT, IDX and INIT stay
(rule R213). There is no return from an error: the next command is handled as if this one had not been issued (rule R216). -/
def raise (s : State) (err : Status) : Host.Outcome State Fault Refusal :=
  respond s s.engine { status := err, payload := .none }

/-- The command at the front of the inbox and the state that performs it. -/
def fetch (s : State) : Except Refusal (Instr × State) :=
  if s.overlap then .error .overlappingCommands
  else
    match decode s.inbox with
    | .ok (i, rest) => .ok (i, { s with inbox := rest })
    | .error .noBytes => .error .incompleteCommand
    | .error .opPadding => .error .malformedOp
    | .error .truncated => .error .incompleteCommand

end Sys2Proof.Machine
end

