-- ==== Sys2Proof/Machine/Operands.lean ====
section
/-! DEFINITION. Operand and result assembly (30_encoding.md section 3, rules R85 to R90). -/

namespace Sys2Proof.Machine

/-- The 64-bit pattern of a SEED operand that the host writes as a signed number: `s mod 2^64` (rule R85, D12). -/
def seedPattern (s : Int) : Word := BitVec.ofInt 64 s

/-- The key is within KEYLEN_MAX (rules R86, R92). The bound is at least 16 (rule R10), which is asked first, so that the
question has a computable answer for such a key whatever the bound is (`keyAdmitted_iff` of Laws/Exec.lean). -/
def keyAdmitted (key : List Word) : Bool := decide (key.length ≤ 16) || decide (key.length ≤ Config.keylenMax)

/-- The LOAD operand is within LOADLEN_MAX (rule R92), which is at least 2499 (rule R10; `imageAdmitted_iff`). -/
def imageAdmitted (img : List Byte) : Bool := decide (img.length ≤ 2499) || decide (img.length ≤ Config.loadlenMax)

/-- `key[j]`, for `j` below the key's length (rules R13, R86). -/
def keyWord (key : List Word) (j : Nat) : Word := key.getD j 0#64

/-- The index field of a 2498-byte operand, a 16-bit unsigned number (rule R88). -/
def imageIndex (img : List Byte) : Nat := memRead img imgIdxOff 2

/-- The 312 words of a 2498-byte operand, "312 × 8-byte state words, in array order" (rule R51): word `k` is MemRead(8k, 8)
(rule R88; `imageWords_read` of Laws/Image.lean). -/
def imageWords (img : List Byte) : Vector Word 312 := ⟨⟨leWords 312 img⟩, leWords_length 312 img⟩

/-- The 2498-byte image of an engine: the 312 words in array order, then the index, all little-endian (rules R51, R52). -/
def saveImage (e : Engine) : List Byte :=
  (e.mt.toList.flatMap fun w => leBytes 8 w.toNat) ++ leBytes 2 e.idx.toNat

/-- The payload of NEXT63: the tempered word shifted right by one, so that bit 63 is 0 (rules R89, R174). -/
def next63Value (d : Word) : Word := d >>> 1

end Sys2Proof.Machine
end

