-- ==== Sys2Proof/Machine/Pipeline.lean ====
section
/-! DEFINITION. The twist-and-temper pipeline: the internal operations TWIST and TEMPER (42_twist_temper.md, rules R150 to
R163). Neither is a command; both run only inside NEXT64 and NEXT63. -/

namespace Sys2Proof.Machine

/-- The word `x = { MT[i][63:31], MT[nxt][30:0] }` of the recurrence (rules R150, R153). -/
def twistWord (cur nxt : Word) : Word := (cur &&& upperMask) ||| (nxt &&& lowerMask)

/-- MAG(x): 0 when bit 0 of `x` is 0, MATRIX_A when it is 1 (rule R150). -/
def mag (x : Word) : Word := if x &&& 1#64 = 0#64 then 0#64 else matrixA

/-- A slot's new word from the words read at the slot, at the next slot and at the partner slot (rule R150). -/
def twistSlot (cur nxt par : Word) : Word :=
  par ^^^ (twistWord cur nxt >>> 1) ^^^ mag (twistWord cur nxt)

/-- Iteration `i` of TWIST's in-place pass: every read sees what the array holds at that moment (rule R150). -/
def twistStep (i : Nat) (mt : Vector Word 312) : Vector Word 312 :=
  mtWrite mt i (twistSlot (mtRead mt i) (mtRead mt ((i + 1) % 312)) (mtRead mt ((i + 156) % 312)))

/-- TWIST's one pass over the array, upward and in place (rule R150). -/
def twistPass (mt : Vector Word 312) : Vector Word 312 := forUp twistStep 0 312 mt

/-- TWIST_BODY(): regenerates MT and sets IDX to 0; INIT is untouched (rule R150). -/
def twistBody (e : Engine) : Engine := { e with mt := twistPass e.mt, idx := 0#16 }

/-- TEMPER's first stage (rule R158). -/
def temperStageA (y : Word) : Word := y ^^^ ((y >>> 29) &&& temperD)

/-- TEMPER's second stage (rule R158). -/
def temperStageB (a : Word) : Word := a ^^^ ((a <<< 17) &&& temperB)

/-- TEMPER's third stage (rule R158). -/
def temperStageC (b : Word) : Word := b ^^^ ((b <<< 37) &&& temperC)

/-- TEMPER's fourth stage (rule R158). -/
def temperStageD (c : Word) : Word := c ^^^ (c >>> 43)

/-- TEMPER(y): the four stages chained (rules R157, R158). It reads and writes no state. -/
def temper (y : Word) : Word := temperStageD (temperStageC (temperStageB (temperStageA y)))

end Sys2Proof.Machine
end

