-- ==== Sys2Proof/Machine/Seed.lean ====
section
/-! DEFINITION. The seeding commands SEED and SEEDM (41_seed.md, rules R130 to R141), grouped as rule R121 says. -/

namespace Sys2Proof.Machine

/-- `p XOR (p >> 62)`, which all three seeding recurrences apply to the word before (rule R121). -/
def scramble (p : Word) : Word := p ^^^ (p >>> seedShift)

/-- One iteration of SEED_BODY's loop: writes `MT[i]` from `MT[i-1]` (rules R131, R121). -/
def seedStep (i : Nat) (mt : Vector Word 312) : Vector Word 312 :=
  mtWrite mt i (seedMult * scramble (mtRead mt (i - 1)) + BitVec.ofNat 64 i)

/-- SEED_BODY's fill of MT: `MT[0] <- v`, then slots 1 to 311 upward (rule R131). -/
def seedFill (v : Word) (mt : Vector Word 312) : Vector Word 312 :=
  forUp seedStep 1 311 (mtWrite mt 0 v)

/-- SEED_BODY(v), shared by SEED, SEEDM and the auto-seed (rule R131). -/
def seedBody (v : Word) (e : Engine) : Engine :=
  { mt := seedFill v e.mt, idx := 312#16, init := true }

/-- The locals of SEEDM_BODY beside MT: the counters `i` and `j` (rule R34: no state; each command starts with fresh ones). -/
structure SeedmLocals where
  mt : Vector Word 312
  i : Nat
  j : Nat
  deriving DecidableEq, Repr

/-- `i <- i + 1; if i >= 312: MT[0] <- MT[311]; i <- 1` (rule R135, steps 3 and 4). -/
def advanceSlot (l : SeedmLocals) : SeedmLocals :=
  if 312 ≤ l.i + 1 then { l with mt := mtWrite l.mt 0 (mtRead l.mt 311), i := 1 }
  else { l with i := l.i + 1 }

/-- `j <- j + 1; if j >= len(key): j <- 0` (rule R135, step 3). -/
def advanceKey (len : Nat) (l : SeedmLocals) : SeedmLocals :=
  if len ≤ l.j + 1 then { l with j := 0 } else { l with j := l.j + 1 }

/-- One iteration of step 3 (rules R135, R121). -/
def keyStep (key : List Word) (l : SeedmLocals) : SeedmLocals :=
  advanceKey key.length (advanceSlot { l with
    mt := mtWrite l.mt l.i
      ((mtRead l.mt l.i ^^^ (scramble (mtRead l.mt (l.i - 1)) * keyMult1)) + keyWord key l.j + BitVec.ofNat 64 l.j) })

/-- One iteration of step 4 (rules R135, R121). -/
def mixStep (l : SeedmLocals) : SeedmLocals :=
  advanceSlot { l with
    mt := mtWrite l.mt l.i
      ((mtRead l.mt l.i ^^^ (scramble (mtRead l.mt (l.i - 1)) * keyMult2)) - BitVec.ofNat 64 l.i) }

/-- The locals after steps 1 to 3 (rule R135): bootstrap, `i = 1`, `j = 0`, then `max(312, len(key))` iterations. -/
def keyLoop (key : List Word) (mt : Vector Word 312) : SeedmLocals :=
  repeatTimes (keyStep key) (max 312 key.length) { mt := seedFill bootSeed mt, i := 1, j := 0 }

/-- SEEDM_BODY(key) for a key of length at least 1 (rule R135). IDX and INIT are those of the bootstrap, 312 and 1. -/
def seedmBody (key : List Word) (e : Engine) : Engine :=
  { seedBody bootSeed e with mt := mtWrite (repeatTimes mixStep 311 (keyLoop key e.mt)).mt 0 topBit }

/-- SEED (rule R132). -/
def execSeed (word : Word) (s : State) : Host.Outcome State Fault Refusal :=
  complete s (seedBody word s.engine) .none

/-- SEEDM (rule R136): the empty key raises EmptyKey before anything else (rule R134); a key beyond KEYLEN_MAX has no
response (rule R92). -/
def execSeedm (key : List Word) (s : State) : Host.Outcome State Fault Refusal :=
  if key.isEmpty then raise s .emptyKey
  else if keyAdmitted key then complete s (seedmBody key s.engine) .none
  else .refused .keyBeyondBound

end Sys2Proof.Machine
end

