-- ==== Sys2Proof/Machine/Next.lean ====
section
/-! DEFINITION. The value production commands NEXT64 and NEXT63 (43_next.md, rules R170 to R178). -/

namespace Sys2Proof.Machine

/-- The auto-seed: an engine with INIT = 0 does what SEED 5489 does (rules R170, R171). -/
def autoSeed (e : Engine) : Engine := if e.init then e else seedBody defaultSeed e

/-- The lazy TWIST: it runs when and only when IDX >= 312 (rules R170, R172). -/
def lazyTwist (e : Engine) : Engine := if exhausted e then twistBody e else e

/-- The engine from which a requested value is read: after the auto-seed test and then the exhausted test (rule R170). -/
def readyEngine (e : Engine) : Engine := lazyTwist (autoSeed e)

/-- The value NEXT64 returns: TEMPER of `MT[IDX]`, read before IDX advances (rules R159, R170). -/
def nextValue (e : Engine) : Word := temper (mtRead (readyEngine e).mt (readyEngine e).idx.toNat)

/-- The engine NEXT64 leaves: `IDX <- IDX + 1`; the raw word stays as it is (rules R159, R170). -/
def nextEngine (e : Engine) : Engine := { readyEngine e with idx := (readyEngine e).idx + 1#16 }

/-- NEXT64 (rule R170). -/
def execNext64 (s : State) : Host.Outcome State Fault Refusal :=
  complete s (nextEngine s.engine) (.word (nextValue s.engine))

/-- NEXT63: NEXT64's effects, and its value shifted right by one (rule R174). -/
def execNext63 (s : State) : Host.Outcome State Fault Refusal :=
  complete s (nextEngine s.engine) (.word (next63Value (nextValue s.engine)))

end Sys2Proof.Machine
end

