-- ==== Sys2Proof/Machine/Reserved.lean ====
section
/-! DEFINITION. The two op values that select no command (30_encoding.md rule R91, 60_exceptions.md rule R217). -/

namespace Sys2Proof.Machine

/-- op 6: ILLEGAL_COMMAND, no state change (rules R91, R217). -/
def execReserved6 (s : State) : Host.Outcome State Fault Refusal := raise s .illegalCommand

/-- op 7: ILLEGAL_COMMAND, no state change (rules R91, R217). -/
def execReserved7 (s : State) : Host.Outcome State Fault Refusal := raise s .illegalCommand

end Sys2Proof.Machine
end

