-- ==== Sys2Proof/Machine/Serialize.lean ====
section
/-! DEFINITION. The serialization commands SAVE and LOAD (44_serialize.md, rules R185 to R197). -/

namespace Sys2Proof.Machine

/-- SAVE (rule R185): the empty sequence when INIT = 0, otherwise the 2498-byte image; a pure read. -/
def execSave (s : State) : Host.Outcome State Fault Refusal :=
  if s.engine.init then complete s s.engine (.bytes (saveImage s.engine))
  else complete s s.engine (.bytes [])

/-- The engine a valid image puts in place: MT, IDX and INIT together (rules R186, R189). -/
def loadedEngine (img : List Byte) : Engine :=
  { mt := imageWords img, idx := BitVec.ofNat 16 (imageIndex img), init := true }

/-- LOAD (rule R186): the empty operand clears INIT alone (rule R188); then the length is checked (rule R190), then the index
(rule R191), and only then is anything written (rules R187, R189). An operand beyond LOADLEN_MAX has no response (rule R92). -/
def execLoad (img : List Byte) (s : State) : Host.Outcome State Fault Refusal :=
  if img.isEmpty then complete s { s.engine with init := false } .none
  else if imageAdmitted img then
    if img.length ≠ imgLen then raise s .sizeMismatch
    else if 312 ≤ imageIndex img then raise s .indexRange
    else complete s (loadedEngine img) .none
  else .refused .imageBeyondBound

end Sys2Proof.Machine
end

