-- ==== Sys2Proof/Machine/Dispatch.lean ====
section
/-! DEFINITION. One arm per command: the command's meaning. -/

namespace Sys2Proof.Machine

def exec (i : Instr) (s : State) : Host.Outcome State Fault Refusal :=
  match i with
  | .seed word => Sys2Proof.Machine.execSeed word s
  | .seedm key => Sys2Proof.Machine.execSeedm key s
  | .next64 => Sys2Proof.Machine.execNext64 s
  | .next63 => Sys2Proof.Machine.execNext63 s
  | .save => Sys2Proof.Machine.execSave s
  | .load img => Sys2Proof.Machine.execLoad img s
  | .reserved6 => Sys2Proof.Machine.execReserved6 s
  | .reserved7 => Sys2Proof.Machine.execReserved7 s

end Sys2Proof.Machine
end

