-- ==== Sys2Proof/Machine/Step.lean ====
section
/-! DEFINITION. One step of the machine: one whole command (rule R59). With no command presented the engine waits, holding
MT, IDX and INIT (rules R228, R241). -/

namespace Sys2Proof.Machine

/-- One step: waiting when the inbox is empty, otherwise the command at its front, performed to its end and answered. -/
def step (s : State) : Host.Outcome State Fault Refusal :=
  if s.inbox.isEmpty then .next s
  else
    match fetch s with
    | .ok (i, t) => exec i t
    | .error r => .refused r

/-- `s` with the command of an opcode-table word presented as the host's next command, ahead of any other, and with no
overlap, so that the very next step performs it (log entry 5). -/
def State.withFetchWord (s : State) (nbits w : Nat) : State :=
  { s with inbox := tableCommand nbits w ++ s.inbox, overlap := false }

end Sys2Proof.Machine
end

