-- ==== Sys2Proof/Safety.lean ====
section
/-! DEFINITION. The terms the statements use: what a state must satisfy, how a host presents commands, and the forms of the
spec that the machine's own functions are compared with. Nothing here is part of the machine. -/

namespace Sys2Proof.Machine

/-- Rule R26: whenever INIT = 1, IDX is at most 312. -/
def State.Inv (s : State) : Prop := s.engine.init = true → s.engine.idx.toNat ≤ 312

/-- The register table of rule R30: IDX is 0 to 312, so that its bits 15:9 are 0, whatever INIT is. -/
def State.CursorBounded (s : State) : Prop := s.engine.idx.toNat ≤ 312

/-- A response in one of rule R83's formats: an error carries no payload (rule R215), and a byte payload has length 0 or
2498 (rule R90). -/
def Response.Legal (r : Response) : Prop :=
  (r.status ≠ .ok → r.payload = .none) ∧ ∀ img, r.payload = .bytes img → img.length = 0 ∨ img.length = 2498

/-- The format of the response of a command that ended with status OK (rules R80, R83). -/
def OkPayloadFits : Instr → Payload → Prop
  | .seed _, p => p = .none
  | .seedm _, p => p = .none
  | .next64, p => ∃ v, p = .word v
  | .next63, p => ∃ v, p = .word v ∧ v.getLsbD 63 = false
  | .save, p => ∃ img, p = .bytes img ∧ (img.length = 0 ∨ img.length = 2498)
  | .load _, p => p = .none
  | .reserved6, _ => False
  | .reserved7, _ => False

/-- The host presents `cmds`, each to be issued after the one before has been answered (rule R59). -/
def State.presenting (s : State) (cmds : List Instr) : State :=
  { s with inbox := cmds.flatMap encode, overlap := false }

/-- `TWIST` applied `t` times: the arrays `A_0, A_1, ...` of rule R176. -/
def twistIter (mt : Vector Word 312) : Nat → Vector Word 312
  | 0 => mt
  | t + 1 => twistPass (twistIter mt t)

/-- The three-range form of TWIST's pass (rule R152): slots 0 to 155, then 156 to 310, then 311, without `mod`. -/
def twistThreeRanges (mt : Vector Word 312) : Vector Word 312 :=
  let low := forUp (fun i m => mtWrite m i (twistSlot (mtRead m i) (mtRead m (i + 1)) (mtRead m (i + 156)))) 0 156 mt
  let high := forUp (fun i m => mtWrite m i (twistSlot (mtRead m i) (mtRead m (i + 1)) (mtRead m (i - 156)))) 156 155 low
  mtWrite high 311 (twistSlot (mtRead high 311) (mtRead high 0) (mtRead high 155))

/-- SAVE's image as rule R185 writes it: MemWrite(8k, 8, MT[k]) for k from 0 to 311, then MemWrite(2496, 2, IDX), on a byte
sequence `blank` of length 2498. -/
def saveByWrites (e : Engine) (blank : List Byte) : List Byte :=
  memWrite 2496 2 e.idx.toNat (forUp (fun k img => memWrite (8 * k) 8 (mtRead e.mt k).toNat img) 0 312 blank)

/-- NEXT63's response beside NEXT64's: the value shifted right by one where `isNext63` (rule R175). -/
def halvedIf (isNext63 : Bool) (r : Response) : Response :=
  match isNext63, r.payload with
  | true, .word v => { r with payload := .word (v >>> 1) }
  | _, _ => r

/-- The exclusive-or of two arrays, slot by slot (rule R155). -/
def xorMt (a b : Vector Word 312) : Vector Word 312 := Vector.zipWith (· ^^^ ·) a b

end Sys2Proof.Machine
end

