-- ==== Sys2Proof/Certificates/Slice0/Obligations.lean ====
section
/-! DEFINITION. The statements for the provers. Each docstring names the rule of spec/ it formalises; where it rests on a choice
(the spec's own decision D<n>, or this model's log entry) the docstring says so. Constants stand as the spec's numerals, so
that a statement checks the model's constants too. -/

open Sys2Proof Sys2Proof.Machine

/-! ## Reset and the step -/

/-- After reset the engine is uninitialised and its array is all zero (rules R37, R38). -/
def Obligations.ResetLeavesTheEngineUninitialised : Prop :=
  State.reset.engine.init = false ∧ ∀ i, (h : i < 312) → State.reset.engine.mt[i] = 0#64

/-- Reset meets the invariants that a step keeps: rule R26, the register table of rule R30 (IDX = 0 is the spec's decision D8),
and every response given so far, of which there is none, has one of rule R83's formats. -/
def Obligations.ResetMeetsTheInvariants : Prop :=
  State.reset.Inv ∧ State.reset.CursorBounded ∧ ∀ r ∈ State.reset.responses, r.Legal

/-- Rule R26's invariant, which the spec derives: a step keeps "0 <= IDX <= 312" whenever INIT = 1, and (rule R30) keeps IDX
at most 312 whatever INIT is. Under it the exhausted test is IDX = 312. -/
def Obligations.StepKeepsTheCursorInRange : Prop :=
  ∀ s t : State, step s = .next t →
    (s.Inv → t.Inv) ∧ (s.CursorBounded → t.CursorBounded) ∧
      (s.CursorBounded → (exhausted s.engine = true ↔ s.engine.idx = 312#16))

/-- Every response has one of rule R83's formats (the spec's decisions D1, D4, D18): an error carries no payload, a SAVE
result has length 0 or 2498. -/
def Obligations.StepKeepsTheResponsesLegal : Prop :=
  ∀ s t : State, step s = .next t → (∀ r ∈ s.responses, r.Legal) → ∀ r ∈ t.responses, r.Legal

/-- A step performs the command that stands decoded at the front of the inbox, on the state without the command's bytes. The
byte form of a command is this model's choice, log entry 2. -/
def Obligations.StepPerformsTheDecodedCommand : Prop :=
  ∀ (s : State) (i : Instr) (rest : List Byte), s.overlap = false → decode s.inbox = .ok (i, rest) →
    step s = exec i { s with inbox := rest }

/-- A step on an opcode-table word presented by `withFetchWord` performs the command that `decodeTableWord` reads from it, and
the rest of the inbox stays behind it (log entries 2 and 5). -/
def Obligations.StepPerformsTheFetchWord : Prop :=
  ∀ (s : State) (nbits w : Nat) (i : Instr), decodeTableWord nbits w = some i →
    step (s.withFetchWord nbits w) = exec i { s with overlap := false }

/-- With no command presented the engine waits (rule R241, which the spec derives; the idle step is log entry 4). A command
issued before the engine has answered has no step (rule R59, decision D11; the overlap input is log entry 3). -/
def Obligations.StepWaitsOrRefusesOverlap : Prop :=
  (∀ s : State, s.inbox = [] → step s = .next s) ∧
    ∀ s : State, s.inbox ≠ [] → s.overlap = true → step s = .refused .overlappingCommands

/-- The only steps without a meaning are those the spec names as such (rule R222, which the spec derives): overlapping
commands, operands beyond the OPEN bounds (log entry 1), an IDX above 312 with INIT = 1 (log entry 7), and bytes that are no
whole command (log entry 2). -/
def Obligations.StepRefusesOnlyWhereNothingIsDefined : Prop :=
  ∀ (s : State) (r : Refusal), step s = .refused r →
    (r = .overlappingCommands ∧ s.overlap = true) ∨
    (r = .malformedOp ∧ ∃ b rest, s.inbox = b :: rest ∧ 8 ≤ b.toNat) ∨
    (r = .incompleteCommand ∧ decode s.inbox = .error .truncated) ∨
    (r = .keyBeyondBound ∧ ∃ key rest, decode s.inbox = .ok (.seedm key, rest) ∧ Config.keylenMax < key.length) ∨
    (r = .imageBeyondBound ∧ ∃ img rest, decode s.inbox = .ok (.load img, rest) ∧ Config.loadlenMax < img.length) ∨
    (r = .cursorOutOfRange ∧ ¬ s.Inv)

/-! ## Encoding -/

/-- Decoding a command's bytes gives the command and leaves the bytes after it, for every well-formed command and every
operand. The op numbers are rule R82's (decision D2), the byte form is log entry 2. -/
def Obligations.DecodeOfEncodeIsTheCommand : Prop :=
  ∀ (i : Instr) (rest : List Byte), i.wf = true → decode (encode i ++ rest) = .ok (i, rest)

/-- Every byte sequence that decodes is the encoding of the command it decodes to, followed by the bytes left over, and that
command is well formed: no two byte forms stand for one command (log entry 2). -/
def Obligations.DecodedBytesAreTheEncoding : Prop :=
  ∀ (bs rest : List Byte) (i : Instr), decode bs = .ok (i, rest) → bs = encode i ++ rest ∧ i.wf = true

/-- Where decoding stops: on no bytes, on a first byte that is no value of the 3-bit op field, and on an operand that is not
there whole, for the three ops that carry one (log entry 2). -/
def Obligations.DecodeStopsOnlyOnIncompleteBytes : Prop :=
  ∀ (bs : List Byte) (d : DecodeError), decode bs = .error d →
    (d = .noBytes ∧ bs = []) ∨
    ∃ b rest, bs = b :: rest ∧
      ((d = .opPadding ∧ 8 ≤ b.toNat) ∨
        (d = .truncated ∧ (b = 0#8 ∨ b = 1#8 ∨ b = 5#8) ∧
          (rest.length < 8 ∨
            (b = 1#8 ∧ (rest.drop 8).length < 8 * leValue (rest.take 8)) ∨
            (b = 5#8 ∧ (rest.drop 8).length < leValue (rest.take 8)))))

/-- The command words written out from rules R81 and R82 (decision D2; byte form log entry 2): every op with a zero operand,
SEED 5489, SEEDM with a key of two words, LOAD of three bytes. -/
def Obligations.WrittenOutWordsDecode : Prop :=
  (List.range 8).map (decodeTableWord 8) =
      [some (.seed 0#64), some (.seedm []), some .next64, some .next63, some .save, some (.load []), some .reserved6,
        some .reserved7] ∧
    decode [0x00#8, 0x71#8, 0x15#8, 0#8, 0#8, 0#8, 0#8, 0#8, 0#8] = .ok (.seed 5489#64, []) ∧
    decode [0x01#8, 2#8, 0#8, 0#8, 0#8, 0#8, 0#8, 0#8, 0#8, 0x45#8, 0x23#8, 0x01#8, 0#8, 0#8, 0#8, 0#8, 0#8,
        0xEF#8, 0xCD#8, 0xAB#8, 0x89#8, 0x67#8, 0x45#8, 0x23#8, 0x01#8] =
      .ok (.seedm [0x12345#64, 0x0123456789ABCDEF#64], []) ∧
    decode [0x05#8, 3#8, 0#8, 0#8, 0#8, 0#8, 0#8, 0#8, 0#8, 0x37#8, 0x01#8, 0xFF#8, 0x02#8] =
      .ok (.load [0x37#8, 0x01#8, 0xFF#8], [0x02#8])

/-- A host's signed seed `n` in [-2^63, 2^63) is presented as `n mod 2^64`, whose two's complement reading is `n` again (rule
R85, decision D12). -/
def Obligations.SignedSeedIsTwosComplement : Prop :=
  ∀ n : Int, -(2 ^ 63) ≤ n → n < 2 ^ 63 →
    ((seedPattern n).toNat : Int) = n % 2 ^ 64 ∧ (seedPattern n).toInt = n

/-! ## Every command -/

/-- Every command the spec admits, its operand within the OPEN bounds whatever they are (log entry 1), is answered in every state
with rule R26's invariant: one response, the host's other inputs unchanged (rules R242, R254; the last is the spec's
derivation). -/
def Obligations.EveryAdmittedCommandIsAnswered : Prop :=
  ∀ (i : Instr) (s : State), i.admitted = true → s.Inv → ∃ e r, exec i s = .next (s.answered e r)

/-- A command gives exactly one response, in the format its status and the command fix (rules R80, R83: decision D1), and
touches neither the commands still to come nor the overlap input. -/
def Obligations.EachCommandGivesOneResponseOfItsFormat : Prop :=
  ∀ (i : Instr) (s t : State), exec i s = .next t →
    t.inbox = s.inbox ∧ t.overlap = s.overlap ∧
      ∃ r, t.responses = r :: s.responses ∧
        ((r.status = .ok ∧ OkPayloadFits i r.payload) ∨ (r.status ≠ .ok ∧ r.payload = .none))

/-- An error changes no state: MT, IDX and INIT after a command that raised one are those before it (rule R213). -/
def Obligations.ErrorsChangeNoEngineState : Prop :=
  ∀ (i : Instr) (s t : State) (r : Response), exec i s = .next t → t.responses = r :: s.responses → r.status ≠ .ok →
    t.engine = s.engine

/-- Each error arises exactly from its cause (rules R210, R211, R212, R217, R218, R220; the last two causes rest on decisions
D6 and D3): SizeMismatch from a LOAD operand whose length is neither 0 nor 2498, IndexRange from a 2498-byte operand whose
index field is 312 or more, EmptyKey from SEEDM with no key word, IllegalCommand from op 6 and 7. -/
def Obligations.EachErrorHasExactlyItsCause : Prop :=
  ∀ (i : Instr) (s t : State) (r : Response), exec i s = .next t → t.responses = r :: s.responses →
    (r.status = .sizeMismatch ↔ ∃ img, i = .load img ∧ img.length ≠ 0 ∧ img.length ≠ 2498) ∧
    (r.status = .indexRange ↔ ∃ img, i = .load img ∧ img.length = 2498 ∧
      312 ≤ (img.getD 2496 0#8).toNat + 256 * (img.getD 2497 0#8).toNat) ∧
    (r.status = .emptyKey ↔ i = .seedm []) ∧
    (r.status = .illegalCommand ↔ i = .reserved6 ∨ i = .reserved7)

/-- The status numbers of rule R84, which are the spec's own (decision D4). -/
def Obligations.StatusNumbersAreTheSpecs : Prop :=
  Status.ok.code = 0#3 ∧ Status.sizeMismatch.code = 1#3 ∧ Status.indexRange.code = 2#3 ∧ Status.emptyKey.code = 3#3 ∧
    Status.illegalCommand.code = 4#3

/-- INIT after each command. Rule R27's table: SEED, SEEDM with a key, NEXT64, NEXT63 and LOAD of a valid image leave 1, LOAD
of the empty operand leaves 0, SAVE and a rejected LOAD leave it unchanged; reset leaves 0. That SEEDM with an empty key leaves
it unchanged rests on decision D6 (log entry 9). For op 6 and 7 that table has no row: that they leave INIT unchanged is rule
R91, decision D3 (log entry 11). -/
def Obligations.InitFollowsItsTable : Prop :=
  State.reset.engine.init = false ∧
  ∀ (i : Instr) (s t : State), exec i s = .next t →
    t.engine.init =
      match i with
      | .seed _ => true
      | .seedm key => if key = [] then s.engine.init else true
      | .next64 => true
      | .next63 => true
      | .save => s.engine.init
      | .load img =>
        if img = [] then false
        else if img.length = 2498 ∧ (img.getD 2496 0#8).toNat + 256 * (img.getD 2497 0#8).toNat < 312 then true
        else s.engine.init
      | .reserved6 => s.engine.init
      | .reserved7 => s.engine.init

/-- IDX after each command. Rule R25's table, which the spec derives, where the row of LOAD of the empty operand is decision D9
and that of SEEDM with an empty key rests on decision D6 (log entry 9). For op 6 and 7 that table has no row: that they leave
IDX unchanged is rule R91, decision D3 (log entry 11). -/
def Obligations.IdxFollowsItsTable : Prop :=
  ∀ (i : Instr) (s t : State), exec i s = .next t →
    t.engine.idx.toNat =
      match i with
      | .seed _ => 312
      | .seedm key => if key = [] then s.engine.idx.toNat else 312
      | .next64 => if s.engine.init = false ∨ s.engine.idx.toNat = 312 then 1 else s.engine.idx.toNat + 1
      | .next63 => if s.engine.init = false ∨ s.engine.idx.toNat = 312 then 1 else s.engine.idx.toNat + 1
      | .save => s.engine.idx.toNat
      | .load img =>
        if img.length = 2498 ∧ (img.getD 2496 0#8).toNat + 256 * (img.getD 2497 0#8).toNat < 312 then
          (img.getD 2496 0#8).toNat + 256 * (img.getD 2497 0#8).toNat
        else s.engine.idx.toNat
      | .reserved6 => s.engine.idx.toNat
      | .reserved7 => s.engine.idx.toNat

/-- The outcomes that leave all 312 words of MT alone. From rule R21's table, which the spec derives: SAVE, LOAD of a rejected
operand, NEXT64 and NEXT63 with INIT = 1 and IDX below 312, SEEDM with an empty key (which rests on decision D6, log entry 9),
and LOAD of the empty operand (decision D9, log entry 9). For op 6 and 7 that table has no row: that they leave MT alone is
rule R91, decision D3 (log entry 11). -/
def Obligations.MtIsLeftAloneByItsReaders : Prop :=
  ∀ (i : Instr) (s t : State), exec i s = .next t →
    (i = .save ∨ i = .reserved6 ∨ i = .reserved7 ∨ i = .seedm [] ∨
      (∃ img, i = .load img ∧
        ¬ (img.length = 2498 ∧ (img.getD 2496 0#8).toNat + 256 * (img.getD 2497 0#8).toNat < 312)) ∨
      ((i = .next64 ∨ i = .next63) ∧ s.engine.init = true ∧ s.engine.idx.toNat < 312)) →
    t.engine.mt = s.engine.mt

/-- SEED, SEEDM with a key and LOAD of a valid image leave an engine and give a response that depend on the operand alone
(rules R140, R194, which the spec derives), in all states with rule R26's invariant. -/
def Obligations.OverwritingCommandsIgnoreTheOldEngine : Prop :=
  ∀ (i : Instr) (s u : State), s.Inv → u.Inv →
    ((∃ w, i = .seed w) ∨ (∃ key, i = .seedm key ∧ key ≠ [] ∧ key.length ≤ Config.keylenMax) ∨
      ∃ img, i = .load img ∧ img.length = 2498 ∧
        (img.getD 2496 0#8).toNat + 256 * (img.getD 2497 0#8).toNat < 312) →
    ∃ e, exec i s = .next (s.answered e { status := .ok, payload := .none }) ∧
      exec i u = .next (u.answered e { status := .ok, payload := .none })

/-- Idempotency: any command but NEXT64 and NEXT63, given twice in a row, leaves the second time the engine of the first time and
gives the same response. It is rule R57's table, which the spec derives, where the rows of SEEDM with an empty key and of LOAD
of the empty operand rest on decisions D6 and D9 (log entry 9). For op 6 and 7 that table has no row: their case rests on rules
R91 and R216, decisions D3 (log entry 11) and D15. -/
def Obligations.RepeatedCommandsAreIdempotent : Prop :=
  ∀ (i : Instr) (s t u : State), i ≠ .next64 → i ≠ .next63 → exec i s = .next t → exec i t = .next u →
    u.engine = t.engine ∧ u.responses.head? = t.responses.head?

/-- The responses given so far are the host's: no run depends on them (rules R32, R216: decision D15). -/
def Obligations.ResponsesAreNeverRead : Prop :=
  ∀ (n : Nat) (s : State) (old : List Response),
    Host.Core.run Sys2Proof.core n { s with responses := s.responses ++ old } =
      match Host.Core.run Sys2Proof.core n s with
      | .next (t : State) => .next { t with responses := t.responses ++ old }
      | .fault f => .fault f
      | .refused r => .refused r

/-- While INIT = 0 the contents of MT and IDX influence no response and no later state of INIT (rule R40, which the spec
derives): two such states that agree otherwise give the same responses for ever, or stop for the same reason. -/
def Obligations.UninitialisedContentsAreUnobservable : Prop :=
  ∀ (n : Nat) (s u : State), s.engine.init = false → u.engine.init = false → s.inbox = u.inbox → s.overlap = u.overlap →
    s.responses = u.responses →
    match Host.Core.run Sys2Proof.core n s, Host.Core.run Sys2Proof.core n u with
    | .next (t : State), .next (v : State) =>
      t.responses = v.responses ∧ t.inbox = v.inbox ∧ t.engine.init = v.engine.init ∧
        (t.engine.init = true → t.engine = v.engine)
    | .refused q, .refused r => q = r
    | _, _ => False

/-! ## Seeding -/

/-- SEED, rule R131: `MT[0] = seed`, then each word from the one just written, IDX = 312, INIT = 1. The old contents play no
part; no error is raised. SEED_BODY, which SEEDM and the auto-seed share, does the same. -/
def Obligations.SeedFillsTheArrayFromItsOperand : Prop :=
  ∀ (v : Word) (s : State), s.Inv → ∃ mt : Vector Word 312,
    exec (.seed v) s = .next (s.answered { mt := mt, idx := 312#16, init := true } { status := .ok, payload := .none }) ∧
    seedBody v s.engine = { mt := mt, idx := 312#16, init := true } ∧
    mt[0] = v ∧
    ∀ i, (h : i < 311) →
      mt[i + 1] = 6364136223846793005#64 * (mt[i] ^^^ (mt[i] >>> 62)) + BitVec.ofNat 64 (i + 1)

/-- After SEED no two neighbouring words are both zero, so that the all-zero array cannot follow a SEED (rule R249, which the
spec derives). -/
def Obligations.SeedLeavesNoTwoZeroNeighbours : Prop :=
  ∀ (v : Word) (s : State), s.Inv → ∃ t : State, exec (.seed v) s = .next t ∧
    ∀ i, (h : i < 311) → ¬ (t.engine.mt[i] = 0#64 ∧ t.engine.mt[i + 1] = 0#64)

/-- SEEDM with an empty key reports EmptyKey and nothing changes (rule R134, decision D6). -/
def Obligations.EmptyKeyIsReported : Prop :=
  ∀ s : State, s.Inv → exec (.seedm []) s = .next (s.answered s.engine { status := .emptyKey, payload := .none })

/-- Operands beyond the OPEN bounds have no response (rule R92, decisions D7 and D23; the bounds are log entry 1). -/
def Obligations.OperandsBeyondTheBoundsHaveNoResponse : Prop :=
  (∀ (key : List Word) (s : State), Config.keylenMax < key.length → exec (.seedm key) s = .refused .keyBeyondBound) ∧
    ∀ (img : List Byte) (s : State), Config.loadlenMax < img.length → exec (.load img) s = .refused .imageBeyondBound

/-- SEEDM with a key of `L` words, rule R135 read as two streams of written words (the streams follow the trace of rule R137,
which the spec derives). `a n` is the word that iteration `n` of step 3 writes, `b m` the one that iteration `m` of step 4
writes; each is computed from the word written just before, and from what its slot held, which is the word written 311
iterations earlier, or the bootstrap's. In the end `MT[0] = 2^63` and slots 1 to 311 hold the words of step 4. -/
def Obligations.SeedmWritesItsTwoStreams : Prop :=
  ∀ (key : List Word) (s : State), key ≠ [] → key.length ≤ Config.keylenMax → s.Inv →
    ∃ (boot mt : Vector Word 312) (a b : Nat → Word),
      boot[0] = 19650218#64 ∧
      (∀ i, (h : i < 311) →
        boot[i + 1] = 6364136223846793005#64 * (boot[i] ^^^ (boot[i] >>> 62)) + BitVec.ofNat 64 (i + 1)) ∧
      a 0 = 19650218#64 ∧
      (∀ n, n < max 312 key.length →
        a (n + 1) =
          (((if h : n < 311 then boot[n + 1] else a (n + 1 - 311)) ^^^
              ((a n ^^^ (a n >>> 62)) * 3935559000370003845#64)) +
            key.getD (n % key.length) 0#64) + BitVec.ofNat 64 (n % key.length)) ∧
      b 0 = a (max 312 key.length) ∧
      (∀ m, m < 311 →
        b (m + 1) =
          (a (max 312 key.length + m - 310) ^^^ ((b m ^^^ (b m >>> 62)) * 2862933555777941757#64)) -
            BitVec.ofNat 64 ((max 312 key.length + m) % 311 + 1)) ∧
      exec (.seedm key) s =
        .next (s.answered { mt := mt, idx := 312#16, init := true } { status := .ok, payload := .none }) ∧
      mt[0] = 9223372036854775808#64 ∧
      ∀ m, (h : m < 311) → mt[(max 312 key.length + m) % 311 + 1] = b (m + 1)

/-- The counters of SEEDM (rule R137, which the spec derives): after `n` iterations of step 3 the slot counter is
`n mod 311 + 1` and the key counter `n mod L`; after `m` further iterations of step 4 the slot counter has gone on from there
and the key counter has not moved. -/
def Obligations.SeedmCountersFollowTheirTrace : Prop :=
  ∀ (key : List Word) (mt : Vector Word 312) (n m : Nat), key ≠ [] →
    (repeatTimes (keyStep key) n { mt := mt, i := 1, j := 0 }).i = n % 311 + 1 ∧
    (repeatTimes (keyStep key) n { mt := mt, i := 1, j := 0 }).j = n % key.length ∧
    (repeatTimes mixStep m (repeatTimes (keyStep key) n { mt := mt, i := 1, j := 0 })).i = (n + m) % 311 + 1 ∧
    (repeatTimes mixStep m (repeatTimes (keyStep key) n { mt := mt, i := 1, j := 0 })).j = n % key.length

/-! ## The pipeline -/

/-- NEXT64 on an exhausted engine runs TWIST in place: the first 156 slots read old partners, the next 155 read partners already
rewritten in this pass, slot 311 reads the new slots 0 and 155 (rules R150, R151; the table is the spec's derivation). The
value is TEMPER of the new slot 0, and IDX is 1 afterwards. -/
def Obligations.ExhaustedRequestTwistsInPlace : Prop :=
  ∀ s : State, s.engine.init = true → s.engine.idx = 312#16 →
    ∃ new : Vector Word 312,
      exec .next64 s =
        .next (s.answered { mt := new, idx := 1#16, init := true } { status := .ok, payload := .word (temper new[0]) }) ∧
      (∀ i, (h : i < 156) →
        let x := (s.engine.mt[i] &&& 0xFFFFFFFF80000000#64) ||| (s.engine.mt[i + 1] &&& 0x7FFFFFFF#64);
          new[i] = s.engine.mt[i + 156] ^^^ (x >>> 1) ^^^ (if x.getLsbD 0 then 0xB5026F5AA96619E9#64 else 0#64)) ∧
      (∀ i, (h : i < 155) →
        let x := (s.engine.mt[i + 156] &&& 0xFFFFFFFF80000000#64) ||| (s.engine.mt[i + 157] &&& 0x7FFFFFFF#64);
          new[i + 156] = new[i] ^^^ (x >>> 1) ^^^ (if x.getLsbD 0 then 0xB5026F5AA96619E9#64 else 0#64)) ∧
      (let x := (s.engine.mt[311] &&& 0xFFFFFFFF80000000#64) ||| (new[0] &&& 0x7FFFFFFF#64);
          new[311] = new[155] ^^^ (x >>> 1) ^^^ (if x.getLsbD 0 then 0xB5026F5AA96619E9#64 else 0#64))

/-- The word `x` of the recurrence, rule R153: bits 63:31 of the slot's word and bits 30:0 of the next slot's word, shifted
logically; MAG depends on bit 0 of `x` alone, which is bit 0 of the next slot's word. -/
def Obligations.TwistWordJoinsTwoSlots : Prop :=
  (∀ (cur nxt : Word) (n : Nat), n < 64 →
    (twistWord cur nxt).getLsbD n = if 31 ≤ n then cur.getLsbD n else nxt.getLsbD n) ∧
  (∀ cur nxt : Word, (twistWord cur nxt >>> 1).getLsbD 63 = false) ∧
  (∀ cur nxt : Word, mag (twistWord cur nxt) = if nxt.getLsbD 0 then 0xB5026F5AA96619E9#64 else 0#64) ∧
  ∀ cur nxt par : Word, twistSlot cur nxt par = par ^^^ (twistWord cur nxt >>> 1) ^^^ mag (twistWord cur nxt)

/-- TWIST's pass with its circular indexing equals the three-range form without `mod` (rule R152, which the spec derives). -/
def Obligations.TwistEqualsItsThreeRangeForm : Prop :=
  ∀ mt : Vector Word 312, twistPass mt = twistThreeRanges mt

/-- TWIST is linear over the two-element field, slot by slot (rule R155 (d), which the spec derives). -/
def Obligations.TwistIsLinear : Prop :=
  ∀ a b : Vector Word 312, twistPass (xorMt a b) = xorMt (twistPass a) (twistPass b)

/-- Bits 30:0 of slot 0 influence no new word (rule R155 (e), which the spec derives). -/
def Obligations.TwistIgnoresTheLowBitsOfSlotZero : Prop :=
  ∀ a b : Vector Word 312, (∀ i, (h : i < 311) → a[i + 1] = b[i + 1]) →
    (∀ n, 31 ≤ n → a[0].getLsbD n = b[0].getLsbD n) → twistPass a = twistPass b

/-- TEMPER is a bijection on words (rule R160 (c), which the spec derives). -/
def Obligations.TemperIsABijection : Prop := Function.Bijective temper

/-- TEMPER maps 0 to 0 and is linear over the two-element field (rule R160 (a) and (b), which the spec derives). -/
def Obligations.TemperIsLinear : Prop :=
  temper 0#64 = 0#64 ∧ ∀ p q : Word, temper (p ^^^ q) = temper p ^^^ temper q

/-- TEMPER is the chain of four steps of rule R157, with rule R157's worked example. -/
def Obligations.TemperChainsItsFourStages : Prop :=
  (∀ y : Word,
    let a := y ^^^ ((y >>> 29) &&& 0x5555555555555555#64)
    let b := a ^^^ ((a <<< 17) &&& 0x71D67FFFEDA60000#64)
    let c := b ^^^ ((b <<< 37) &&& 0xFFF7EEE000000000#64)
    temper y = c ^^^ (c >>> 43)) ∧
  temper 0x0000000000000001#64 = 0x0040002000020801#64

/-! ## Value production -/

/-- NEXT64, rule R170, in its own order: auto-seed test, exhausted test, read of `MT[IDX]`, TEMPER, IDX + 1; with its worked
example on a fresh engine. The operations it calls are stated by the seeding and pipeline statements, and its op number, which
is decision D2, by WrittenOutWordsDecode. -/
def Obligations.Next64FollowsItsRule : Prop :=
  (∀ s : State, s.Inv →
    let e1 := if s.engine.init = false then seedBody 5489#64 s.engine else s.engine
    let e2 := if 312 ≤ e1.idx.toNat then twistBody e1 else e1
    ∃ h : e2.idx.toNat < 312,
      exec .next64 s =
        .next (s.answered { e2 with idx := e2.idx + 1#16 }
          { status := .ok, payload := .word (temper e2.mt[e2.idx.toNat]) })) ∧
  ∃ e : Engine, e.idx = 1#16 ∧ e.init = true ∧
    exec .next64 State.reset = .next (State.reset.answered e { status := .ok, payload := .word 0xC96D191CF6F6AEA6#64 })

/-- NEXT63, rule R174: NEXT64's engine and its value shifted right by one; with its worked example on a fresh engine. -/
def Obligations.Next63IsNext64Shifted : Prop :=
  (∀ s : State, s.Inv →
    ∃ (e : Engine) (d : Word),
      exec .next64 s = .next (s.answered e { status := .ok, payload := .word d }) ∧
      exec .next63 s = .next (s.answered e { status := .ok, payload := .word (d >>> 1) })) ∧
  ∃ e : Engine,
    exec .next63 State.reset = .next (State.reset.answered e { status := .ok, payload := .word 0x64B68C8E7B7B5753#64 })

/-- The payload of NEXT63 lies in [0, 2^63): bit 63 is 0, and its signed reading is its unsigned reading (rules R89 and
R175 (a): decision D16 and the spec's derivation). -/
def Obligations.Next63StaysBelowTwoToThe63 : Prop :=
  ∀ s : State, s.Inv → ∃ (e : Engine) (v : Word),
    exec .next63 s = .next (s.answered e { status := .ok, payload := .word v }) ∧
      v.toNat < 2 ^ 63 ∧ v.getLsbD 63 = false ∧ v.toInt = v.toNat

/-- The auto-seed, rule R171: a value request on an uninitialised engine gives the engine and the response that it gives after
SEED 5489, and leaves INIT = 1; only LOAD of the empty operand clears INIT again, so that the auto-seed happens at most once
between two such events. -/
def Obligations.AutoSeedIsSeed5489 : Prop :=
  (∀ (i : Instr) (s : State), i = .next64 ∨ i = .next63 → s.engine.init = false →
    ∃ (seeded : State) (e : Engine) (r : Response),
      exec (.seed 5489#64) s = .next seeded ∧ exec i seeded = .next (seeded.answered e r) ∧
        exec i s = .next (s.answered e r) ∧ e.init = true) ∧
  ∀ (i : Instr) (s t : State), exec i s = .next t → s.engine.init = true → i ≠ .load [] → t.engine.init = true

/-- The output stream, rule R176, which the spec derives: from an initialised engine with cursor `p`, value number `m`
(counting from 0) of any run of NEXT64 commands is TEMPER of slot `(p + m) mod 312` of the array twisted
`(p + m) div 312` times; the engine left holds that array and the cursor behind that slot. -/
def Obligations.ValueStreamIsTheTwistedArrays : Prop :=
  ∀ (n : Nat) (s : State), s.engine.init = true → s.engine.idx.toNat ≤ 312 →
    ∃ t : State,
      Host.Core.run Sys2Proof.core n (s.presenting (List.replicate n .next64)) = .next t ∧
      t.inbox = [] ∧
      t.responses =
        ((List.range n).map fun m =>
          { status := .ok,
            payload := .word (temper ((twistIter s.engine.mt ((s.engine.idx.toNat + m) / 312))[(s.engine.idx.toNat + m) % 312]'(
              Nat.mod_lt _ (by decide)))) : Response }).reverse ++ s.responses ∧
      (n = 0 → t.engine = s.engine) ∧
      (0 < n →
        t.engine =
          { mt := twistIter s.engine.mt ((s.engine.idx.toNat + n - 1) / 312),
            idx := BitVec.ofNat 16 ((s.engine.idx.toNat + n - 1) % 312 + 1),
            init := true })

/-- Any mix of `n` NEXT64 and NEXT63 commands leaves the state of `n` NEXT64 commands, and each response is that of the pure
run, shifted right by one where the command was NEXT63 (rule R175 (b), which the spec derives). -/
def Obligations.MixedRequestsShareOneStream : Prop :=
  ∀ (mix : List Bool) (s : State), s.Inv →
    ∃ (t u : State) (pure : List Response),
      Host.Core.run Sys2Proof.core mix.length (s.presenting (mix.map fun b => if b then .next63 else .next64)) = .next t ∧
      Host.Core.run Sys2Proof.core mix.length (s.presenting (List.replicate mix.length .next64)) = .next u ∧
      t.engine = u.engine ∧ pure.length = mix.length ∧
      u.responses = pure.reverse ++ s.responses ∧
      t.responses = (List.zipWith halvedIf mix pure).reverse ++ s.responses

/-- The all-zero array (rule R249, which the spec derives): LOAD accepts the image of 2498 zero bytes (rule R186's worked
example), and from an initialised engine whose words are all zero every value is 0 for ever. -/
def Obligations.AllZeroArrayGivesZeroForEver : Prop :=
  (∀ s : State, s.Inv → exec (.load (List.replicate 2498 0#8)) s =
    .next (s.answered { mt := Vector.replicate 312 0#64, idx := 0#16, init := true } { status := .ok, payload := .none })) ∧
  ∀ (n : Nat) (s : State), s.engine.mt = Vector.replicate 312 0#64 → s.engine.init = true → s.engine.idx.toNat ≤ 312 →
    ∃ t : State,
      Host.Core.run Sys2Proof.core n (s.presenting (List.replicate n .next64)) = .next t ∧
      t.engine.mt = Vector.replicate 312 0#64 ∧
      t.responses = List.replicate n { status := .ok, payload := .word 0#64 } ++ s.responses

/-- No command has a step with INIT = 1 and IDX at 313 or more, states that no step produces (rules R26 and R222, which the spec
derives; 93_implementation_defined.md U6; log entry 7). An operand beyond a bound is refused for that reason instead. -/
def Obligations.CursorBeyond312HasNoMeaning : Prop :=
  ∀ (i : Instr) (s : State), s.engine.init = true → 313 ≤ s.engine.idx.toNat → i.admitted = true →
    exec i s = .refused .cursorOutOfRange

/-! ## Serialization -/

/-- SAVE, rule R185: the empty sequence when INIT = 0; otherwise the 2498 bytes, word `k` at offsets `8k` to `8k + 7` and IDX
at 2496 and 2497, least significant byte first. The status is OK and nothing changes. -/
def Obligations.SaveWritesTheImageAndChangesNothing : Prop :=
  (∀ s : State, s.engine.init = false →
    exec .save s = .next (s.answered s.engine { status := .ok, payload := .bytes [] })) ∧
  ∀ s : State, s.engine.init = true → s.engine.idx.toNat ≤ 312 →
    ∃ img : List Byte,
      exec .save s = .next (s.answered s.engine { status := .ok, payload := .bytes img }) ∧
      img.length = 2498 ∧
      (∀ k b, (hk : k < 312) → b < 8 → img[8 * k + b]? = some (s.engine.mt[k].extractLsb' (8 * b) 8)) ∧
      img[2496]? = some (s.engine.idx.extractLsb' 0 8) ∧
      img[2497]? = some (s.engine.idx.extractLsb' 8 8)

/-- SAVE's image is what rule R185's sequence of MemWrites builds, whatever the 2498 bytes it starts from hold. -/
def Obligations.SaveImageIsTheMemWriteSequence : Prop :=
  ∀ (e : Engine) (start : List Byte), start.length = 2498 → saveByWrites e start = saveImage e

/-- The serialization register file is a view of MT and IDX that SAVE reads whole (rule R33, decision D19). -/
def Obligations.SaveReadsTheSerializationView : Prop :=
  ∀ e : Engine, saveImage e = (List.range 2498).map (serByte e)

/-- LOAD of a valid image, rule R189: every word is the little-endian value of its 8 bytes, IDX is the index field, INIT is 1;
the prior state is discarded and the words are not checked. -/
def Obligations.LoadPutsAValidImageInPlace : Prop :=
  ∀ (img : List Byte) (s : State), s.Inv → img.length = 2498 →
    (img.getD 2496 0#8).toNat + 256 * (img.getD 2497 0#8).toNat ≤ 311 →
    ∃ (mt : Vector Word 312) (idx : BitVec 16),
      exec (.load img) s = .next (s.answered { mt := mt, idx := idx, init := true } { status := .ok, payload := .none }) ∧
      idx.toNat = (img.getD 2496 0#8).toNat + 256 * (img.getD 2497 0#8).toNat ∧
      ∀ k, (h : k < 312) → mt[k].toNat = ∑ b ∈ Finset.range 8, (img.getD (8 * k + b) 0#8).toNat * 2 ^ (8 * b)

/-- LOAD of the empty operand clears INIT and leaves MT and IDX (rule R188; what MT and IDX hold is decision D9). -/
def Obligations.EmptyLoadClearsInitAlone : Prop :=
  ∀ s : State, s.Inv → exec (.load []) s =
    .next (s.answered { mt := s.engine.mt, idx := s.engine.idx, init := false } { status := .ok, payload := .none })

/-- LOAD with a wrong length, rule R190: SizeMismatch, the prior state unmodified, whatever the bytes are, for every operand
that can be handed to LOAD at all (rule R92; the bound is OPEN, log entry 1). -/
def Obligations.WrongLengthIsRejected : Prop :=
  ∀ (img : List Byte) (s : State), s.Inv → img.length ≠ 0 → img.length ≠ 2498 → img.length ≤ Config.loadlenMax →
    exec (.load img) s = .next (s.answered s.engine { status := .sizeMismatch, payload := .none })

/-- LOAD with an index out of range, rule R191: all of 312 to 65535 are rejected, the prior state unmodified, whatever the 312
words are. -/
def Obligations.IndexOutOfRangeIsRejected : Prop :=
  ∀ (img : List Byte) (s : State), s.Inv → img.length = 2498 →
    312 ≤ (img.getD 2496 0#8).toNat + 256 * (img.getD 2497 0#8).toNat →
    exec (.load img) s = .next (s.answered s.engine { status := .indexRange, payload := .none })

/-- The round trip, rule R66, which the spec derives: what SAVE gives for an engine, LOAD puts into any other engine `u`:
(a) INIT = 0 gives the empty image, which clears INIT; (b) INIT = 1 and IDX at most 311 gives an image that restores exactly
that engine; (c) INIT = 1 and IDX = 312 gives an image that LOAD rejects with IndexRange. That `u` keeps MT and IDX in (a) is
decision D9, and that neither SAVE nor LOAD makes 312 anything else in (c) is decision D14 (both log entry 9). -/
def Obligations.SaveThenLoadRoundTrips : Prop :=
  ∀ s u : State, s.Inv → u.Inv → ∃ img : List Byte,
    exec .save s = .next (s.answered s.engine { status := .ok, payload := .bytes img }) ∧
    (s.engine.init = false → img = [] ∧
      exec (.load img) u = .next (u.answered { u.engine with init := false } { status := .ok, payload := .none })) ∧
    (s.engine.init = true → s.engine.idx.toNat ≤ 311 →
      exec (.load img) u = .next (u.answered s.engine { status := .ok, payload := .none })) ∧
    (s.engine.init = true → s.engine.idx.toNat = 312 →
      exec (.load img) u = .next (u.answered u.engine { status := .indexRange, payload := .none }))

/-- The image map is a bijection (rule R65, which the spec derives), seen from the image: LOAD of any valid image followed by
SAVE gives the image back. -/
def Obligations.LoadThenSaveGivesTheImageBack : Prop :=
  ∀ (img : List Byte) (s : State), s.Inv → img.length = 2498 →
    (img.getD 2496 0#8).toNat + 256 * (img.getD 2497 0#8).toNat ≤ 311 →
    ∃ t : State, exec (.load img) s = .next t ∧
      exec .save t = .next (t.answered t.engine { status := .ok, payload := .bytes img })

/-! ## The reserved ops -/

/-- op 6 and 7 answer IllegalCommand and change no state (rules R91, R217: decision D3). -/
def Obligations.ReservedOpsAreIllegal : Prop :=
  ∀ s : State, s.Inv →
    exec .reserved6 s = .next (s.answered s.engine { status := .illegalCommand, payload := .none }) ∧
      exec .reserved7 s = .next (s.answered s.engine { status := .illegalCommand, payload := .none })

/-! ## Parameters -/

/-- The OPEN bounds are within the limits that the spec sets them (rule R10, decisions D7 and D23): KEYLEN_MAX is at least 16
and a length the rules are valid for, LOADLEN_MAX is at least 2499. So keys of up to 16 words and operands of up to 2499 bytes
are admitted whatever the choice is (log entry 1). -/
def Obligations.OpenBoundsAreWithinTheirLimits : Prop :=
  16 ≤ Config.keylenMax ∧ Config.keylenMax < 2 ^ 64 ∧ 2499 ≤ Config.loadlenMax ∧
    (∀ key : List Word, key.length ≤ 16 → (Instr.seedm key).admitted = true) ∧
    ∀ img : List Byte, img.length ≤ 2499 → (Instr.load img).admitted = true
end

