-- ==== Sys2Proof/Laws/State.lean ====
section
/-! SUPPORT. One lemma per field per update of the state: what a state reads as after a command has been answered, after its
inbox or overlap input is set, and right after reset. -/

namespace Sys2Proof.Machine

variable (s : State) (e : Engine) (r : Response)

@[simp] theorem State.answered_engine : (s.answered e r).engine = e := rfl
@[simp] theorem State.answered_inbox : (s.answered e r).inbox = s.inbox := rfl
@[simp] theorem State.answered_overlap : (s.answered e r).overlap = s.overlap := rfl
@[simp] theorem State.answered_responses : (s.answered e r).responses = r :: s.responses := rfl

@[simp] theorem State.presenting_engine (cmds : List Instr) : (s.presenting cmds).engine = s.engine := rfl
@[simp] theorem State.presenting_inbox (cmds : List Instr) : (s.presenting cmds).inbox = cmds.flatMap encode := rfl
@[simp] theorem State.presenting_overlap (cmds : List Instr) : (s.presenting cmds).overlap = false := rfl
@[simp] theorem State.presenting_responses (cmds : List Instr) : (s.presenting cmds).responses = s.responses := rfl

@[simp] theorem State.withFetchWord_engine (nbits w : Nat) : (s.withFetchWord nbits w).engine = s.engine := rfl
@[simp] theorem State.withFetchWord_inbox (nbits w : Nat) :
    (s.withFetchWord nbits w).inbox = tableCommand nbits w ++ s.inbox := rfl
@[simp] theorem State.withFetchWord_overlap (nbits w : Nat) : (s.withFetchWord nbits w).overlap = false := rfl
@[simp] theorem State.withFetchWord_responses (nbits w : Nat) : (s.withFetchWord nbits w).responses = s.responses := rfl

@[simp] theorem State.reset_engine : State.reset.engine = Engine.fresh := rfl
@[simp] theorem State.reset_inbox : State.reset.inbox = [] := rfl
@[simp] theorem State.reset_overlap : State.reset.overlap = false := rfl
@[simp] theorem State.reset_responses : State.reset.responses = [] := rfl

@[simp] theorem Engine.fresh_init : Engine.fresh.init = false := rfl
@[simp] theorem Engine.fresh_idx : Engine.fresh.idx = 0#16 := rfl

@[simp] theorem seedBody_mt (v : Word) : (seedBody v e).mt = seedFill v e.mt := rfl
@[simp] theorem seedBody_idx (v : Word) : (seedBody v e).idx = 312#16 := rfl
@[simp] theorem seedBody_init (v : Word) : (seedBody v e).init = true := rfl

@[simp] theorem seedmBody_idx (key : List Word) : (seedmBody key e).idx = 312#16 := rfl
@[simp] theorem seedmBody_init (key : List Word) : (seedmBody key e).init = true := rfl

@[simp] theorem twistBody_mt : (twistBody e).mt = twistPass e.mt := rfl
@[simp] theorem twistBody_idx : (twistBody e).idx = 0#16 := rfl
@[simp] theorem twistBody_init : (twistBody e).init = e.init := rfl

@[simp] theorem loadedEngine_mt (img : List Byte) : (loadedEngine img).mt = imageWords img := rfl
@[simp] theorem loadedEngine_idx (img : List Byte) : (loadedEngine img).idx = BitVec.ofNat 16 (imageIndex img) := rfl
@[simp] theorem loadedEngine_init (img : List Byte) : (loadedEngine img).init = true := rfl

@[simp] theorem nextEngine_mt : (nextEngine e).mt = (readyEngine e).mt := rfl
@[simp] theorem nextEngine_idx : (nextEngine e).idx = (readyEngine e).idx + 1#16 := rfl
@[simp] theorem nextEngine_init : (nextEngine e).init = (readyEngine e).init := rfl

end Sys2Proof.Machine
end

