-- ==== Sys2Proof/Laws/Ops.lean ====
section
/-! SUPPORT. What the shared operations on MT and the loops do, said once: reading after writing, the agreement with
Vector's own indexing, and the induction a loop needs. -/

namespace Sys2Proof.Machine

variable {α : Type}

@[simp] theorem nth_nil (d : α) (n : Nat) : nth d [] n = d := rfl
@[simp] theorem nth_zero (d a : α) (l : List α) : nth d (a :: l) 0 = a := rfl
@[simp] theorem nth_succ (d a : α) (l : List α) (n : Nat) : nth d (a :: l) (n + 1) = nth d l n := rfl

@[simp] theorem setNth_nil (n : Nat) (v : α) : setNth [] n v = [] := rfl
@[simp] theorem setNth_zero (a : α) (l : List α) (v : α) : setNth (a :: l) 0 v = v :: l := rfl
@[simp] theorem setNth_succ (a : α) (l : List α) (n : Nat) (v : α) :
    setNth (a :: l) (n + 1) v = a :: setNth l n v := rfl

/-- `nth` is the library's `getD`. -/
theorem nth_eq_getD (d : α) (l : List α) (n : Nat) : nth d l n = l.getD n d := by
  induction l generalizing n with
  | nil => simp
  | cons a l ih => cases n <;> simp [ih]

/-- `setNth` is the library's `set`. -/
theorem setNth_eq_set (l : List α) (n : Nat) (v : α) : setNth l n v = l.set n v := by
  induction l generalizing n with
  | nil => simp
  | cons a l ih => cases n <;> simp [ih]

/-- `MT[n]` is element `n` of the array. -/
theorem mtRead_eq_getElem (mt : Vector Word 312) (n : Nat) (h : n < 312) : mtRead mt n = mt[n] := by
  rw [mtRead, nth_eq_getD, List.getD_eq_getElem _ _ (by simpa using h)]
  rfl

/-- `MT[n] <- v` is the array with element `n` replaced. -/
theorem mtWrite_eq_set (mt : Vector Word 312) (n : Nat) (v : Word) (h : n < 312) : mtWrite mt n v = mt.set n v := by
  rcases mt with ⟨⟨l⟩, hl⟩
  simp [mtWrite, setNth_eq_set, Vector.set]

/-- A read after a write to the same slot gives the value written. -/
theorem mtRead_mtWrite_same (mt : Vector Word 312) (n : Nat) (v : Word) (h : n < 312) :
    mtRead (mtWrite mt n v) n = v := by
  simp [mtRead_eq_getElem _ _ h, mtWrite_eq_set _ _ _ h]

/-- A write leaves every other slot alone. -/
theorem mtRead_mtWrite_other (mt : Vector Word 312) (n k : Nat) (v : Word) (hne : n ≠ k) :
    mtRead (mtWrite mt n v) k = mtRead mt k := by
  simp only [mtRead, mtWrite, nth_eq_getD, setNth_eq_set]
  simp [List.getD_eq_getElem?_getD, hne]

/-- A read after a write, both cases. -/
theorem mtRead_mtWrite (mt : Vector Word 312) (n k : Nat) (v : Word) (hk : k < 312) :
    mtRead (mtWrite mt n v) k = if n = k then v else mtRead mt k := by
  split
  · subst n; exact mtRead_mtWrite_same mt k v hk
  · exact mtRead_mtWrite_other mt n k v ‹_›

/-- Two arrays are equal when their 312 slots read alike. -/
theorem mt_ext {a b : Vector Word 312} (h : ∀ k, k < 312 → mtRead a k = mtRead b k) : a = b := by
  apply Vector.ext
  intro k hk
  rw [← mtRead_eq_getElem a k hk, ← mtRead_eq_getElem b k hk]
  exact h k hk

@[simp] theorem forUp_zero (body : Nat → α → α) (first : Nat) (a : α) : forUp body first 0 a = a := by
  rw [forUp]

theorem forUp_succ (body : Nat → α → α) (first count : Nat) (a : α) :
    forUp body first (count + 1) a = forUp body (first + 1) count (body first a) := by
  rw [forUp]

/-- The loop's last iteration, taken off at the end. -/
theorem forUp_succ_last (body : Nat → α → α) (first count : Nat) (a : α) :
    forUp body first (count + 1) a = body (first + count) (forUp body first count a) := by
  induction count generalizing first a with
  | zero => simp [forUp_succ]
  | succ count ih =>
    rw [forUp_succ, ih, forUp_succ, Nat.add_assoc, Nat.add_comm 1 count]

/-- A loop cut in two. -/
theorem forUp_add (body : Nat → α → α) (first m n : Nat) (a : α) :
    forUp body first (m + n) a = forUp body (first + m) n (forUp body first m a) := by
  induction n with
  | zero => simp
  | succ n ih => rw [← Nat.add_assoc, forUp_succ_last, ih, forUp_succ_last, Nat.add_assoc]

/-- The induction of a loop: what holds before it and is kept by each of its iterations holds after it. -/
theorem forUp_induct {P : Nat → α → Prop} (body : Nat → α → α) (first count : Nat) (a : α) (h0 : P 0 a)
    (hstep : ∀ k b, k < count → P k b → P (k + 1) (body (first + k) b)) : P count (forUp body first count a) := by
  induction count with
  | zero => simpa using h0
  | succ count ih =>
    rw [forUp_succ_last]
    exact hstep count _ (Nat.lt_succ_self count) (ih fun k b hk => hstep k b (Nat.lt_succ_of_lt hk))

@[simp] theorem repeatTimes_zero (body : α → α) (a : α) : repeatTimes body 0 a = a := by
  rw [repeatTimes]

theorem repeatTimes_succ (body : α → α) (n : Nat) (a : α) :
    repeatTimes body (n + 1) a = repeatTimes body n (body a) := by
  rw [repeatTimes]

/-- The repetition's last iteration, taken off at the end. -/
theorem repeatTimes_succ_last (body : α → α) (n : Nat) (a : α) :
    repeatTimes body (n + 1) a = body (repeatTimes body n a) := by
  induction n generalizing a with
  | zero => simp [repeatTimes_succ]
  | succ n ih => rw [repeatTimes_succ, ih, repeatTimes_succ]

end Sys2Proof.Machine
end

