-- ==== Sys2Proof/Laws/Image.lean ====
section
/-! SUPPORT. Bytes, numbers and image fields: the little-endian maps are inverse to each other, an image has its length, and
a word of an image is what MemRead gives at its offset. -/

namespace Sys2Proof

@[simp] theorem leBytes_length (n v : Nat) : (leBytes n v).length = n := by
  induction n generalizing v with
  | zero => rfl
  | succ n ih => simp [leBytes, ih]

/-- Reading back `n` bytes gives the number modulo 2^(8n). -/
theorem leValue_leBytes (n v : Nat) : leValue (leBytes n v) = v % 256 ^ n := by
  induction n generalizing v with
  | zero => simp [leBytes, leValue, Nat.mod_one]
  | succ n ih =>
    have hpow : 256 ^ (n + 1) = 256 * 256 ^ n := by rw [Nat.pow_succ, Nat.mul_comm]
    simp only [leBytes, leValue, ih, BitVec.toNat_ofNat]
    rw [hpow, Nat.mod_mul]

/-- `n` bytes stand for a number below 2^(8n). -/
theorem leValue_lt (bs : List Byte) : leValue bs < 256 ^ bs.length := by
  induction bs with
  | nil => simp [leValue]
  | cons b bs ih =>
    have hb : b.toNat < 256 := b.isLt
    simp only [leValue, List.length_cons, Nat.pow_succ]
    omega

/-- Writing a byte sequence's number gives the sequence back. -/
theorem leBytes_leValue (bs : List Byte) : leBytes bs.length (leValue bs) = bs := by
  induction bs with
  | nil => rfl
  | cons b bs ih =>
    have hb : b.toNat < 256 := b.isLt
    have hdiv : (b.toNat + 256 * leValue bs) / 256 = leValue bs := by omega
    have hmod : BitVec.ofNat 8 (b.toNat + 256 * leValue bs) = b := by
      apply BitVec.eq_of_toNat_eq
      simp only [BitVec.toNat_ofNat]
      omega
    simp only [List.length_cons, leValue, leBytes, hdiv, hmod, ih]

/-- Byte `b` of a number's bytes is its bits `8b + 7` down to `8b` (rule R52). -/
theorem leBytes_getElem? (n v b : Nat) (h : b < n) : (leBytes n v)[b]? = some (BitVec.ofNat 8 (v / 256 ^ b)) := by
  induction n generalizing v b with
  | zero => omega
  | succ n ih =>
    cases b with
    | zero => simp [leBytes]
    | succ b =>
      rw [leBytes, List.getElem?_cons_succ, ih (v / 256) b (by omega), Nat.div_div_eq_div_mul, Nat.pow_succ,
        Nat.mul_comm (256 ^ b) 256]

/-- Word `k` of a run of words is read from bytes `8k` to `8k + 7`. -/
theorem leWords_getD (n k : Nat) (bs : List Byte) (h : k < n) :
    (leWords n bs).getD k 0#64 = BitVec.ofNat 64 (leValue ((bs.drop (8 * k)).take 8)) := by
  induction n generalizing k bs with
  | zero => omega
  | succ n ih =>
    cases k with
    | zero => simp [leWords]
    | succ k =>
      rw [leWords, List.getD_cons_succ, ih k (bs.drop 8) (by omega), List.drop_drop, Nat.mul_succ, Nat.add_comm (8 * k) 8]

namespace Machine

/-- Word `k` of a LOAD operand is MemRead(8k, 8) (rule R88). -/
theorem imageWords_read (img : List Byte) (k : Nat) (h : k < 312) :
    mtRead (imageWords img) k = BitVec.ofNat 64 (memRead img (8 * k) 8) := by
  rw [mtRead, nth_eq_getD]
  exact leWords_getD 312 k img h

/-- The index field is a 16-bit number (rule R88). -/
theorem imageIndex_lt (img : List Byte) : imageIndex img < 65536 := by
  have h := leValue_lt ((img.drop imgIdxOff).take 2)
  have hlen : ((img.drop imgIdxOff).take 2).length ≤ 2 := by simp
  exact Nat.lt_of_lt_of_le h (Nat.pow_le_pow_right (by decide) hlen)

theorem flatMap_leBytes_length (l : List Word) : (l.flatMap fun w => leBytes 8 w.toNat).length = 8 * l.length := by
  induction l with
  | nil => rfl
  | cons w l ih => simp [ih]; omega

/-- A full image has 2498 bytes (rule R51). -/
theorem saveImage_length (e : Engine) : (saveImage e).length = 2498 := by
  simp only [saveImage, List.length_append, flatMap_leBytes_length, leBytes_length, Vector.length_toList]

/-- MemWrite keeps the image's length when the field lies inside it (rule R54). -/
theorem memWrite_length (addr n v : Nat) (img : List Byte) (h : addr + n ≤ img.length) :
    (memWrite addr n v img).length = img.length := by
  simp [memWrite]; omega

/-- MemWrite puts the field's bytes at its offsets and leaves every other byte alone (rule R54). -/
theorem memWrite_getElem? (addr n v a : Nat) (img : List Byte) (h : addr + n ≤ img.length) :
    (memWrite addr n v img)[a]? = if addr ≤ a ∧ a < addr + n then (leBytes n v)[a - addr]? else img[a]? := by
  have htake : (img.take addr).length = addr := by rw [List.length_take]; omega
  unfold memWrite
  by_cases hlow : a < addr
  · rw [if_neg (by omega), List.append_assoc, List.getElem?_append_left (by omega), List.getElem?_take_of_lt hlow]
  by_cases hin : a < addr + n
  · rw [if_pos ⟨by omega, hin⟩, List.getElem?_append_left (by simp [htake]; omega),
      List.getElem?_append_right (by omega), htake]
  · rw [if_neg (by omega), List.getElem?_append_right (by simp [htake]; omega), List.getElem?_drop]
    congr 1
    simp [htake]
    omega

end Machine

end Sys2Proof
end

