-- ==== Sys2Proof/Laws/Exec.lean ====
section
/-! SUPPORT. What a command can do, said once: the cases in which `exec` answers, with the engine it leaves and the response
it gives (`exec_next`), and the cases in which it refuses (`exec_refused`). -/

namespace Sys2Proof.Machine

/-- Command `i`, performed by engine `e`, leaves engine `e'` and gives response `r`: one constructor per outcome. -/
inductive Effect : Instr → Engine → Engine → Response → Prop where
  | seed (word : Word) (e : Engine) : Effect (.seed word) e (seedBody word e) { status := .ok, payload := .none }
  | emptyKey (e : Engine) : Effect (.seedm []) e e { status := .emptyKey, payload := .none }
  | seedm (key : List Word) (e : Engine) (hne : key ≠ []) (hmax : key.length ≤ Config.keylenMax) :
      Effect (.seedm key) e (seedmBody key e) { status := .ok, payload := .none }
  | next64 (e : Engine) :
      Effect .next64 e (nextEngine e) { status := .ok, payload := .word (nextValue e) }
  | next63 (e : Engine) :
      Effect .next63 e (nextEngine e) { status := .ok, payload := .word (next63Value (nextValue e)) }
  | saveEmpty (e : Engine) (h : e.init = false) : Effect .save e e { status := .ok, payload := .bytes [] }
  | save (e : Engine) (h : e.init = true) :
      Effect .save e e { status := .ok, payload := .bytes (saveImage e) }
  | loadEmpty (e : Engine) : Effect (.load []) e { e with init := false } { status := .ok, payload := .none }
  | loadSize (img : List Byte) (e : Engine) (hne : img ≠ []) (hmax : img.length ≤ Config.loadlenMax)
      (hlen : img.length ≠ 2498) : Effect (.load img) e e { status := .sizeMismatch, payload := .none }
  | loadIndex (img : List Byte) (e : Engine) (hlen : img.length = 2498) (hidx : 312 ≤ imageIndex img) :
      Effect (.load img) e e { status := .indexRange, payload := .none }
  | load (img : List Byte) (e : Engine) (hlen : img.length = 2498) (hidx : imageIndex img < 312) :
      Effect (.load img) e (loadedEngine img) { status := .ok, payload := .none }
  | reserved6 (e : Engine) : Effect .reserved6 e e { status := .illegalCommand, payload := .none }
  | reserved7 (e : Engine) : Effect .reserved7 e e { status := .illegalCommand, payload := .none }

theorem cursorLegal_iff (e : Engine) : cursorLegal e = true ↔ (e.init = true → e.idx.toNat ≤ 312) := by
  cases h : e.init <;> simp [cursorLegal, h]

theorem keyAdmitted_iff (key : List Word) : keyAdmitted key = true ↔ key.length ≤ Config.keylenMax := by
  have := Config.keylenMax_ge
  simp only [keyAdmitted, Bool.or_eq_true, decide_eq_true_eq]
  omega

theorem imageAdmitted_iff (img : List Byte) : imageAdmitted img = true ↔ img.length ≤ Config.loadlenMax := by
  have := Config.loadlenMax_ge
  simp only [imageAdmitted, Bool.or_eq_true, decide_eq_true_eq]
  omega

/-- Command `i` has no response because its operand lies beyond an OPEN bound. -/
inductive BeyondBound : Instr → Refusal → Prop where
  | seedm (key : List Word) (hmax : Config.keylenMax < key.length) : BeyondBound (.seedm key) .keyBeyondBound
  | load (img : List Byte) (hmax : Config.loadlenMax < img.length) : BeyondBound (.load img) .imageBeyondBound

/-- A command has an effect to respond with, or its operand lies beyond a bound. -/
theorem exec_cases (i : Instr) (s : State) :
    (∃ e r, Effect i s.engine e r ∧ exec i s = respond s e r) ∨ ∃ q, BeyondBound i q ∧ exec i s = .refused q := by
  cases i with
  | seed word => exact .inl ⟨_, _, .seed word _, rfl⟩
  | seedm key =>
    by_cases hne : key = []
    · subst hne; exact .inl ⟨_, _, .emptyKey _, rfl⟩
    by_cases hmax : key.length ≤ Config.keylenMax
    · exact .inl ⟨_, _, .seedm key _ hne hmax, by simp [exec, execSeedm, (keyAdmitted_iff key).mpr hmax, hne, complete]⟩
    · have hadm : keyAdmitted key = false := Bool.eq_false_iff.mpr (mt (keyAdmitted_iff key).mp hmax)
      exact .inr ⟨_, .seedm key (Nat.lt_of_not_le hmax), by simp [exec, execSeedm, hadm, hne]⟩
  | next64 => exact .inl ⟨_, _, .next64 _, rfl⟩
  | next63 => exact .inl ⟨_, _, .next63 _, rfl⟩
  | save =>
    cases hinit : s.engine.init with
    | false => exact .inl ⟨_, _, .saveEmpty _ hinit, by simp [exec, execSave, hinit, complete]⟩
    | true => exact .inl ⟨_, _, .save _ hinit, by simp [exec, execSave, hinit, complete]⟩
  | load img =>
    by_cases hne : img = []
    · subst hne; exact .inl ⟨_, _, .loadEmpty _, rfl⟩
    by_cases hmax : img.length ≤ Config.loadlenMax
    · have hadm := (imageAdmitted_iff img).mpr hmax
      by_cases hlen : img.length = 2498
      · by_cases hidx : 312 ≤ imageIndex img
        · exact .inl ⟨_, _, .loadIndex img _ hlen hidx, by simp [exec, execLoad, hadm, hne, hlen, imgLen, hidx, raise]⟩
        · exact .inl ⟨_, _, .load img _ hlen (Nat.lt_of_not_le hidx),
            by simp [exec, execLoad, hadm, hne, hlen, imgLen, hidx, complete]⟩
      · exact .inl ⟨_, _, .loadSize img _ hne hmax hlen, by simp [exec, execLoad, hadm, hne, hlen, imgLen, raise]⟩
    · have hadm : imageAdmitted img = false := Bool.eq_false_iff.mpr (mt (imageAdmitted_iff img).mp hmax)
      exact .inr ⟨_, .load img (Nat.lt_of_not_le hmax), by simp [exec, execLoad, hadm, hne]⟩
  | reserved6 => exact .inl ⟨_, _, .reserved6 _, rfl⟩
  | reserved7 => exact .inl ⟨_, _, .reserved7 _, rfl⟩

/-- A command has one effect at most on an engine. -/
theorem Effect.unique {i : Instr} {e e₁ e₂ : Engine} {r₁ r₂ : Response} (h₁ : Effect i e e₁ r₁) (h₂ : Effect i e e₂ r₂) :
    e₁ = e₂ ∧ r₁ = r₂ := by
  cases h₁ <;> cases h₂ <;> first | exact ⟨rfl, rfl⟩ | (exfalso; simp_all; done) | (exfalso; omega)

/-- A command with an effect is within the bounds. -/
theorem Effect.not_beyondBound {i : Instr} {e e' : Engine} {r : Response} {q : Refusal} (h : Effect i e e' r) :
    ¬ BeyondBound i q := by
  have hkey := Config.keylenMax_ge
  have himg := Config.loadlenMax_ge
  intro hb
  cases hb <;> cases h <;> simp_all <;> omega

/-- Every effect is what `exec` responds with. -/
theorem exec_eq_respond {i : Instr} {s : State} {e : Engine} {r : Response} (h : Effect i s.engine e r) :
    exec i s = respond s e r := by
  rcases exec_cases i s with ⟨e', r', he, hx⟩ | ⟨q, hq, _⟩
  · obtain ⟨rfl, rfl⟩ := h.unique he
    exact hx
  · exact absurd hq h.not_beyondBound

/-- In a state the rules speak of, every effect is what `exec` answers with. -/
theorem exec_of_effect {i : Instr} {s : State} {e : Engine} {r : Response} (hlegal : cursorLegal s.engine = true)
    (h : Effect i s.engine e r) : exec i s = .next (s.answered e r) := by
  simp [exec_eq_respond h, respond, hlegal]

/-- A command that answers was performed in a state the rules speak of and has one of its effects; the host's inputs stay and
one response is added. -/
theorem exec_next {i : Instr} {s t : State} (h : exec i s = .next t) :
    cursorLegal s.engine = true ∧ ∃ e r, Effect i s.engine e r ∧ t = s.answered e r := by
  rcases exec_cases i s with ⟨e, r, he, hx⟩ | ⟨q, _, hx⟩ <;> rw [h] at hx
  · cases hl : cursorLegal s.engine with
    | true =>
      simp only [respond, hl, if_true] at hx
      injection hx with hx
      exact ⟨rfl, e, r, he, hx⟩
    | false => simp [respond, hl] at hx
  · cases hx

/-- A command is refused only for an operand beyond a bound, or in a state with an IDX above 312 that the rules do not speak
of. -/
theorem exec_refused {i : Instr} {s : State} {q : Refusal} (h : exec i s = .refused q) :
    BeyondBound i q ∨ (q = .cursorOutOfRange ∧ cursorLegal s.engine = false) := by
  rcases exec_cases i s with ⟨e, r, _, hx⟩ | ⟨p, hp, hx⟩ <;> rw [h] at hx
  · cases hl : cursorLegal s.engine with
    | true => simp [respond, hl] at hx
    | false =>
      simp only [respond, hl] at hx
      injection hx with hx
      exact .inr ⟨hx, rfl⟩
  · injection hx with hx
    exact .inl (hx ▸ hp)

/-- The engine a value is read from has INIT = 1 and a slot number in IDX (rules R162, R170). -/
theorem readyEngine_ready (e : Engine) :
    (readyEngine e).init = true ∧ (readyEngine e).idx.toNat < 312 := by
  have hseeded : (autoSeed e).init = true := by
    cases hi : e.init <;> simp [autoSeed, hi]
  unfold readyEngine lazyTwist exhausted
  split
  · simp [hseeded]
  · simp_all

/-- IDX after a value request: one more than the slot read, with no wrap (rule R25). -/
theorem nextEngine_idx_toNat (e : Engine) :
    (nextEngine e).idx.toNat = (readyEngine e).idx.toNat + 1 := by
  have hlt := (readyEngine_ready e).2
  simp only [nextEngine_idx, BitVec.toNat_add]
  exact Nat.mod_eq_of_lt (by simpa using (by omega : (readyEngine e).idx.toNat + 1 < 65536))

/-- A fetch that gives a command has decoded the front of the inbox, with no overlap; only the inbox changes. -/
theorem fetch_ok {s t : State} {i : Instr} (h : fetch s = .ok (i, t)) :
    s.overlap = false ∧ ∃ rest, decode s.inbox = .ok (i, rest) ∧ t = { s with inbox := rest } := by
  unfold fetch at h
  cases ho : s.overlap with
  | true => simp [ho] at h
  | false =>
    refine ⟨rfl, ?_⟩
    cases hd : decode s.inbox with
    | ok p =>
      obtain ⟨j, rest⟩ := p
      simp only [ho, hd] at h
      injection h with h
      injection h with hj ht
      exact ⟨rest, by rw [hj], ht.symm⟩
    | error d => cases d <;> simp [ho, hd] at h

/-- A step that answers either waited with an empty inbox or performed the command it fetched. -/
theorem step_next {s t : State} (h : step s = .next t) :
    (s.inbox = [] ∧ t = s) ∨
      ∃ i rest e r, decode s.inbox = .ok (i, rest) ∧ s.overlap = false ∧ cursorLegal s.engine = true ∧
        Effect i s.engine e r ∧
        t = ({ s with inbox := rest } : State).answered e r := by
  unfold step at h
  cases hempty : s.inbox.isEmpty with
  | true =>
    simp only [hempty, if_true] at h
    injection h with h
    exact .inl ⟨List.isEmpty_iff.mp hempty, h.symm⟩
  | false =>
    cases hf : fetch s with
    | error q => simp [hempty, hf] at h
    | ok p =>
      obtain ⟨i, u⟩ := p
      simp only [hempty, hf] at h
      obtain ⟨ho, rest, hd, rfl⟩ := fetch_ok hf
      obtain ⟨hl, e, r, he, rfl⟩ := exec_next h
      exact .inr ⟨i, rest, e, r, hd, ho, hl, he, rfl⟩

end Sys2Proof.Machine
end

