-- ==== Sys2Proof/Laws/PerInstr.lean ====
section
/-! SUPPORT. The statements made of every command as syntax: which op number its first byte carries (rule R82). -/

namespace Sys2Proof.Laws.OpField

/-- The first byte of the command's encoding is its op number, bits 7:3 zero. -/
def Statement (i : Instr) : Prop := encode i = BitVec.ofNat 8 (opcode i).toNat :: encodeOperand i

theorem seed (word : Word) : Statement (.seed word) := rfl
theorem seedm (key : List Word) : Statement (.seedm key) := rfl
theorem next64 : Statement .next64 := rfl
theorem next63 : Statement .next63 := rfl
theorem save : Statement .save := rfl
theorem load (img : List Byte) : Statement (.load img) := rfl
theorem reserved6 : Statement .reserved6 := rfl
theorem reserved7 : Statement .reserved7 := rfl

end Sys2Proof.Laws.OpField
end

