-- ==== Sys2Proof/Tests/Slice0.lean ====
section
/-! SUPPORT. Tests with expected results from spec/95_test_vectors.md and the worked examples of the rules, and for every
statement with hypotheses a witness that meets them all. -/

namespace Sys2Proof.Tests

open Sys2Proof.Machine

/-! ### Helpers -/

/-- The reset machine with another engine. -/
def withEngine (e : Engine) : State := { State.reset with engine := e }

/-- An initialised engine with cursor `idx` whose words are 0 but for word `k`, which is `v`. -/
def sparse (k : Nat) (v : Word) (idx : BitVec 16) : Engine :=
  { mt := mtWrite (Vector.replicate 312 0#64) k v, idx := idx, init := true }

/-- The state a command leaves; the reset machine where it has none. -/
def after (o : Host.Outcome State Fault Refusal) : State :=
  match o with
  | .next t => t
  | .fault _ => State.reset
  | .refused _ => State.reset

/-- Words `ks` of MT, then IDX and INIT. -/
def view (ks : List Nat) (e : Engine) : List Word × BitVec 16 × Bool := (ks.map (mtRead e.mt), e.idx, e.init)

def isRefused (r : Refusal) (o : Host.Outcome State Fault Refusal) : Bool :=
  match o with
  | .next _ => false
  | .fault _ => false
  | .refused q => q == r

/-- An image with one word `v` at slot `k` and the two index bytes `lo`, `hi`; every other byte 0. -/
def sparseImage (k : Nat) (v : Word) (lo hi : Byte) : List Byte :=
  List.replicate (8 * k) 0#8 ++ (leBytes 8 v.toNat ++ (List.replicate (2488 - 8 * k) 0#8 ++ [lo, hi]))

/-! ### Well-formedness: one ill-formed command for each check (rule R92) -/

theorem test_wf_refuses_a_key_too_long : (Instr.seedm (List.replicate (2 ^ 64) 0#64)).wf = false := by
  simp only [Instr.wf, List.length_replicate, decide_eq_false_iff_not]
  decide

theorem test_wf_refuses_an_image_too_long : (Instr.load (List.replicate (2 ^ 64) 0#8)).wf = false := by
  simp only [Instr.wf, List.length_replicate, decide_eq_false_iff_not]
  decide

theorem test_wf_accepts_the_empty_key : (Instr.seedm []).wf = true := by decide

theorem test_admitted_refuses_a_key_beyond_the_bound :
    (Instr.seedm (List.replicate (Config.keylenMax + 1) 0#64)).admitted = false := by
  simp [Instr.admitted]

theorem test_admitted_refuses_an_image_beyond_the_bound :
    (Instr.load (List.replicate (Config.loadlenMax + 1) 0#8)).admitted = false := by
  simp [Instr.admitted]

theorem test_admitted_accepts_sixteen_words : (Instr.seedm (List.replicate 16 7#64)).admitted = true := by
  simpa [Instr.admitted] using Config.keylenMax_ge

/-! ### Decoding: words written out from rules R81 and R82 -/

theorem test_decode_seed : decode [0#8, 0x71#8, 0x15#8, 0#8, 0#8, 0#8, 0#8, 0#8, 0#8] = .ok (.seed 5489#64, []) := by decide
theorem test_decode_seed_minus_one :
    decode (0#8 :: List.replicate 8 0xFF#8) = .ok (.seed 0xFFFFFFFFFFFFFFFF#64, []) := by decide
theorem test_decode_seedm :
    decode [1#8, 1#8, 0#8, 0#8, 0#8, 0#8, 0#8, 0#8, 0#8, 0x45#8, 0x23#8, 0x01#8, 0#8, 0#8, 0#8, 0#8, 0#8, 2#8] =
      .ok (.seedm [0x12345#64], [2#8]) := by decide
theorem test_decode_next64 : decode [2#8] = .ok (.next64, []) := by decide
theorem test_decode_next63 : decode [3#8, 3#8] = .ok (.next63, [3#8]) := by decide
theorem test_decode_save : decode [4#8] = .ok (.save, []) := by decide
theorem test_decode_load :
    decode [5#8, 2#8, 0#8, 0#8, 0#8, 0#8, 0#8, 0#8, 0#8, 0x37#8, 0x01#8] = .ok (.load [0x37#8, 0x01#8], []) := by decide
theorem test_decode_reserved6 : decode [6#8] = .ok (.reserved6, []) := by decide
theorem test_decode_reserved7 : decode [7#8] = .ok (.reserved7, []) := by decide
theorem test_decode_rejects_padding : decode [8#8] = .error .opPadding := by decide
theorem test_decode_rejects_no_bytes : decode [] = .error .noBytes := by decide
theorem test_decode_rejects_truncated : decode [5#8, 2#8, 0#8, 0#8, 0#8, 0#8, 0#8, 0#8, 0#8, 0x37#8] = .error .truncated := by
  decide
theorem test_encode_seedm_of_two_words :
    encode (.seedm [1#64, 0x0123456789ABCDEF#64]) =
      [1#8, 2#8, 0#8, 0#8, 0#8, 0#8, 0#8, 0#8, 0#8, 1#8, 0#8, 0#8, 0#8, 0#8, 0#8, 0#8, 0#8,
        0xEF#8, 0xCD#8, 0xAB#8, 0x89#8, 0x67#8, 0x45#8, 0x23#8, 0x01#8] := by decide
theorem test_table_words :
    (List.range 8).map (decodeTableWord 3) =
      [some (.seed 0#64), some (.seedm []), some .next64, some .next63, some .save, some (.load []), some .reserved6,
        some .reserved7] := by decide
theorem test_fetch_word_leaves_nothing_behind :
    ((List.range 8).map fun w => (State.reset.withFetchWord 8 w).inbox.length) = [9, 9, 1, 1, 1, 9, 1, 1] := by decide

/-! ### Operands (rules R85, C3) and the pipeline's single-slot and single-word vectors (rules R156, R161) -/

theorem test_seed_patterns :
    [seedPattern (-1), seedPattern (2 ^ 63 - 1), seedPattern (-(2 ^ 63))] =
      [0xFFFFFFFFFFFFFFFF#64, 0x7FFFFFFFFFFFFFFF#64, 0x8000000000000000#64] := by decide

theorem test_twist_slot_vectors :
    [twistSlot 0#64 1#64 0#64, twistSlot 0xFFFFFFFFFFFFFFFF#64 0#64 0#64, twistSlot 0x7FFFFFFF#64 0#64 0#64,
      twistSlot 0#64 0xFFFFFFFFFFFFFFFF#64 0#64, twistSlot 0x8000000000000000#64 0x7FFFFFFF#64 1#64,
      twistSlot 0x1571#64 0xB5347F47116BD3DE#64 0x245B1C66FA082BFF#64] =
    [0xB5026F5AA96619E9#64, 0x7FFFFFFFC0000000#64, 0#64, 0xB5026F5A9699E616#64, 0xF5026F5A9699E617#64,
      0x245B1C66F2BDC210#64] := by decide

theorem test_temper_vectors :
    [1#64, 0x4000000#64, 0x80000000000#64, 0x8000000000000000#64, 0x0123456789ABCDEF#64, 0xFFFFFFFFFFFFFFFF#64].map temper =
    [0x0040002000020801#64, 0x8000080004100001#64, 0x1000080080024001#64, 0x8000000400100000#64, 0x2254DA7001198660#64,
      0x7BFEEEEFEFA1D577#64] := by decide

/-! ### Commands: at most two each, one step on a small state -/

/-- V-SEED-2. -/
theorem test_seed_zero :
    view [0, 1, 2, 3, 311] (after (exec (.seed 0#64) State.reset)).engine =
      ([0#64, 1#64, 0x5851F42D4C957F2F#64, 0xC0B18CCF4E252D19#64, 0xCDE6D1BB67E51A2A#64], 312#16, true) := by decide +kernel

/-- V-SEED-4: every arithmetic operation of the recurrence wraps. -/
theorem test_seed_minus_one :
    view [1, 2, 155] (after (exec (.seed 0xFFFFFFFFFFFFFFFF#64) State.reset)).engine =
      ([0x9EB82F4ACDAA034D#64, 0x677779FFDF81C5E5#64, 0xB5A82647E3DB1A5C#64], 312#16, true) := by decide +kernel

/-- V-SEEDM-1 and the worked example of rule R136. -/
theorem test_seedm_four_words :
    view [0, 1, 2, 3, 311]
        (after (exec (.seedm [0x12345#64, 0x23456#64, 0x34567#64, 0x45678#64]) State.reset)).engine =
      ([0x8000000000000000#64, 0xA53DA00C269CD27C#64, 0x20D8FFBDC1559D6E#64, 0x0E6DAA62627F3F13#64, 0x81A384FB290849CD#64],
        312#16, true) := by decide +kernel

/-- V-SEEDM-15 on a fresh engine. -/
theorem test_seedm_empty_key :
    after (exec (.seedm []) State.reset) =
      { State.reset with responses := [{ status := .emptyKey, payload := .none }] } := rfl

/-- V-NEXT-2: the auto-seed and the first TWIST inside one command. -/
theorem test_next64_fresh :
    (after (exec .next64 State.reset)).responses = [{ status := .ok, payload := .word 0xC96D191CF6F6AEA6#64 }] := by
  decide +kernel

/-- Rule R163: the in-place pass, which a pass over a frozen copy would get wrong at slots 156 and 311. -/
theorem test_next64_twists_in_place :
    view [0, 1, 156, 157, 311] (after (exec .next64 (withEngine (sparse 1 1#64 312#16)))).engine =
      ([0xB5026F5AA96619E9#64, 0#64, 0xB5026F5AA96619E9#64, 0#64, 0xB5026F5ABDD5151D#64], 1#16, true) := by decide +kernel

/-- V-NEXT-2 for NEXT63. -/
theorem test_next63_fresh :
    (after (exec .next63 State.reset)).responses = [{ status := .ok, payload := .word 0x64B68C8E7B7B5753#64 }] := by
  decide +kernel

/-- Rule R173 (b): the last word of a batch is read without a TWIST, and IDX becomes 312. -/
theorem test_next63_last_slot :
    let t := after (exec .next63 (withEngine (sparse 311 1#64 311#16)))
    t.responses = [{ status := .ok, payload := .word 0x0020001000010400#64 }] ∧
      view [0, 311] t.engine = ([0#64, 1#64], 312#16, true) := by decide +kernel

/-- The worked example of rule R185. -/
theorem test_save_byte_order :
    (saveImage (sparse 0 0x0123456789ABCDEF#64 311#16)).take 9 =
        [0xEF#8, 0xCD#8, 0xAB#8, 0x89#8, 0x67#8, 0x45#8, 0x23#8, 0x01#8, 0#8] ∧
      (saveImage (sparse 0 0x0123456789ABCDEF#64 311#16)).drop 2496 = [0x37#8, 0x01#8] := by decide +kernel

/-- V-SAVE-1. -/
theorem test_save_fresh :
    (after (exec .save State.reset)).responses = [{ status := .ok, payload := .bytes [] }] := by decide +kernel

/-- V-LOAD-13, with its words in slot 0, and the index bytes `37 01` of rule R193 (c). -/
theorem test_load_valid :
    view [0, 1, 311] (after (exec (.load (sparseImage 0 0x0123456789ABCDEF#64 0x37#8 0x01#8)) State.reset)).engine =
      ([0x0123456789ABCDEF#64, 0#64, 0#64], 311#16, true) := by decide +kernel

/-- Rule R193 (d) and (e): the index bytes `38 01` and `00 02`. -/
theorem test_load_index_range :
    ([sparseImage 0 0#64 0x38#8 0x01#8, sparseImage 0 0#64 0x00#8 0x02#8].map fun img =>
      (after (exec (.load img) State.reset)).responses) =
      List.replicate 2 [{ status := .indexRange, payload := .none }] := by decide +kernel

/-- V-ERR-1. -/
theorem test_reserved6 :
    after (exec .reserved6 State.reset) =
      { State.reset with responses := [{ status := .illegalCommand, payload := .none }] } := rfl

/-- V-ERR-2. -/
theorem test_reserved7 :
    after (exec .reserved7 State.reset) =
      { State.reset with responses := [{ status := .illegalCommand, payload := .none }] } := rfl

/-! ### Witnesses: a concrete state and operands that meet all hypotheses of each statement -/

/-- The witness of the statements whose one hypothesis is rule R26's invariant. -/
theorem test_reset_inv : State.reset.Inv := fun h => absurd h (by decide)

/-- A state with a NEXT64 command presented, used where a step must answer. -/
def pending : State := State.reset.presenting [.next64]

theorem test_witness_step_answers : step pending = .next (pending.answered (nextEngine Engine.fresh)
    { status := .ok, payload := .word (nextValue Engine.fresh) } |> fun t => { t with inbox := [] }) := rfl

theorem test_witness_StepKeepsTheCursorInRange :
    (∃ t, step pending = .next t) ∧ pending.Inv ∧ pending.CursorBounded := by
  refine ⟨⟨_, test_witness_step_answers⟩, ?_, ?_⟩ <;> simp [pending, State.Inv, State.CursorBounded]

theorem test_witness_StepKeepsTheCursorInRange_boundary :
    (withEngine (sparse 0 0#64 312#16)).Inv ∧ exhausted (sparse 0 0#64 312#16) = true ∧
      exhausted (sparse 0 0#64 311#16) = false := by
  refine ⟨fun _ => ?_, ?_, ?_⟩ <;> decide

theorem test_witness_StepKeepsTheResponsesLegal :
    (∃ t, step pending = .next t) ∧ ∀ r ∈ pending.responses, r.Legal :=
  ⟨⟨_, test_witness_step_answers⟩, fun r hr => absurd hr (by simp [pending])⟩

theorem test_witness_StepPerformsTheDecodedCommand :
    pending.overlap = false ∧ decode pending.inbox = .ok (.next64, []) := by decide

theorem test_witness_StepPerformsTheFetchWord : decodeTableWord 8 2 = some .next64 := by decide

theorem test_witness_StepWaitsOrRefusesOverlap :
    State.reset.inbox = [] ∧ ({ pending with overlap := true } : State).inbox ≠ [] ∧
      ({ pending with overlap := true } : State).overlap = true := by decide

theorem test_witness_StepRefuses_overlap :
    isRefused .overlappingCommands (step { pending with overlap := true }) = true := by decide

theorem test_witness_StepRefuses_malformed :
    isRefused .malformedOp (step { State.reset with inbox := [8#8] }) = true := by decide

theorem test_witness_StepRefuses_incomplete :
    isRefused .incompleteCommand (step { State.reset with inbox := [0#8, 1#8] }) = true := by decide

theorem test_witness_StepRefuses_cursor :
    isRefused .cursorOutOfRange (step { withEngine (sparse 0 0#64 313#16) with inbox := [2#8] }) = true := by decide

theorem test_witness_DecodeOfEncode : (Instr.seedm [1#64, 2#64]).wf = true ∧ (Instr.load [3#8]).wf = true := by decide

theorem test_witness_DecodedBytes : decode [3#8, 9#8] = .ok (.next63, [9#8]) := by decide

theorem test_witness_DecodeStops :
    decode [] = .error .noBytes ∧ decode [8#8] = .error .opPadding ∧ decode [255#8] = .error .opPadding ∧
      decode [0#8] = .error .truncated ∧
      decode (1#8 :: 1#8 :: List.replicate 14 0#8) = .error .truncated ∧
      decode (5#8 :: 1#8 :: List.replicate 7 0#8) = .error .truncated := by decide

theorem test_witness_SignedSeed :
    (-(2 ^ 63) ≤ (-(2 ^ 63) : Int) ∧ (-(2 ^ 63) : Int) < 2 ^ 63) ∧ (-(2 ^ 63) ≤ (2 ^ 63 - 1 : Int) ∧ (2 ^ 63 - 1 : Int) < 2 ^ 63) := by
  decide

theorem test_witness_EveryAdmittedCommand :
    (Instr.seedm [7#64]).admitted = true ∧ (withEngine (sparse 0 0#64 312#16)).Inv := by
  have hmax := Config.keylenMax_ge
  refine ⟨?_, fun _ => ?_⟩
  · simp only [Instr.admitted, List.length_singleton, decide_eq_true_eq]
    omega
  · decide

/-- LOAD of the empty operand is answered on an initialised engine and clears INIT. -/
theorem test_witness_exec_empty_load :
    (withEngine (sparse 0 1#64 312#16)).engine.init = true ∧
      exec (.load []) (withEngine (sparse 0 1#64 312#16)) =
        .next ((withEngine (sparse 0 1#64 312#16)).answered { sparse 0 1#64 312#16 with init := false }
          { status := .ok, payload := .none }) := by
  refine ⟨rfl, ?_⟩
  simp only [exec, execLoad, complete]
  rfl

/-- An answered command, for the statements that assume `exec i s = .next t`. -/
theorem test_witness_exec_answers :
    exec .save State.reset = .next (State.reset.answered Engine.fresh { status := .ok, payload := .bytes [] }) := rfl

/-- An error, for the statements about a response with an error status: EmptyKey, IllegalCommand and SizeMismatch. -/
theorem test_witness_exec_errors :
    exec (.seedm []) State.reset = .next (State.reset.answered Engine.fresh { status := .emptyKey, payload := .none }) ∧
    exec .reserved6 State.reset =
      .next (State.reset.answered Engine.fresh { status := .illegalCommand, payload := .none }) ∧
    exec (.load [0#8]) State.reset =
      .next (State.reset.answered Engine.fresh { status := .sizeMismatch, payload := .none }) :=
  ⟨rfl, rfl, rfl⟩

/-- IndexRange at the boundary: index 312. -/
theorem test_witness_index_range :
    State.reset.Inv ∧ (sparseImage 0 0#64 0x38#8 0x01#8).length = 2498 ∧
      312 ≤ ((sparseImage 0 0#64 0x38#8 0x01#8).getD 2496 0#8).toNat +
        256 * ((sparseImage 0 0#64 0x38#8 0x01#8).getD 2497 0#8).toNat := ⟨test_reset_inv, by decide +kernel⟩

/-- A valid image at the boundary: index 311. -/
theorem test_witness_valid_image :
    State.reset.Inv ∧ (sparseImage 0 1#64 0x37#8 0x01#8).length = 2498 ∧
      ((sparseImage 0 1#64 0x37#8 0x01#8).getD 2496 0#8).toNat +
        256 * ((sparseImage 0 1#64 0x37#8 0x01#8).getD 2497 0#8).toNat = 311 := ⟨test_reset_inv, by decide +kernel⟩

theorem test_witness_MtIsLeftAlone_cases :
    (withEngine (sparse 0 0#64 311#16)).engine.init = true ∧
      (withEngine (sparse 0 0#64 311#16)).engine.idx.toNat < 312 ∧ ¬ ([0#8] : List Byte).length = 2498 := by decide

theorem test_witness_key_admitted :
    ([7#64] : List Word) ≠ [] ∧ ([7#64] : List Word).length ≤ Config.keylenMax ∧ State.reset.Inv ∧
      (withEngine (sparse 0 0#64 312#16)).Inv :=
  ⟨by decide, Nat.le_trans (by decide) Config.keylenMax_ge, test_reset_inv, fun _ => by decide⟩

theorem test_witness_RepeatedCommands :
    Instr.save ≠ .next64 ∧ Instr.save ≠ .next63 ∧
      exec .save (after (exec .save State.reset)) =
        .next ((after (exec .save State.reset)).answered Engine.fresh { status := .ok, payload := .bytes [] }) :=
  ⟨by decide, by decide, rfl⟩

/-- Two uninitialised states that differ in MT and IDX. -/
theorem test_witness_Uninitialised :
    let s : State := pending
    let u : State := { pending with engine := { sparse 5 9#64 77#16 with init := false } }
    s.engine.init = false ∧ u.engine.init = false ∧ s.inbox = u.inbox ∧ s.overlap = u.overlap ∧
      s.responses = u.responses ∧ s.engine ≠ u.engine :=
  ⟨rfl, rfl, rfl, rfl, rfl, fun h => absurd (congrArg Engine.idx h) (by decide)⟩

theorem test_witness_beyond_bounds :
    Config.keylenMax < (List.replicate (Config.keylenMax + 1) 0#64).length ∧
      Config.loadlenMax < (List.replicate (Config.loadlenMax + 1) 0#8).length := by
  simp

theorem test_witness_ExhaustedRequest :
    (withEngine (sparse 1 1#64 312#16)).engine.init = true ∧ (withEngine (sparse 1 1#64 312#16)).engine.idx = 312#16 := by
  decide

/-- Two arrays that differ only in bits 30:0 of slot 0. -/
theorem test_witness_TwistIgnoresLowBits :
    (∀ i, (h : i < 311) → (sparse 0 0x7FFFFFFF#64 0#16).mt[i + 1] = (sparse 0 0#64 0#16).mt[i + 1]) ∧
      ∀ n, 31 ≤ n → (sparse 0 0x7FFFFFFF#64 0#16).mt[0].getLsbD n = (sparse 0 0#64 0#16).mt[0].getLsbD n := by
  constructor
  · intro i h
    rw [← mtRead_eq_getElem _ _ (by omega), ← mtRead_eq_getElem _ _ (by omega)]
    simp only [sparse]
    rw [mtRead_mtWrite_other _ _ _ _ (by omega), mtRead_mtWrite_other _ _ _ _ (by omega)]
  · intro n hn
    rw [← mtRead_eq_getElem _ _ (by decide), ← mtRead_eq_getElem _ _ (by decide)]
    simp only [sparse]
    rw [mtRead_mtWrite_same _ _ _ (by decide), mtRead_mtWrite_same _ _ _ (by decide)]
    by_cases h64 : n < 64
    · interval_cases n <;> decide
    · rw [BitVec.getLsbD_of_ge _ _ (by omega), BitVec.getLsbD_of_ge _ _ (by omega)]

theorem test_witness_value_requests :
    State.reset.Inv ∧ (withEngine (sparse 0 0#64 0#16)).Inv ∧ (withEngine (sparse 0 0#64 311#16)).Inv ∧
      (withEngine (sparse 0 0#64 312#16)).Inv := by
  refine ⟨fun h => absurd h (by decide), fun _ => ?_, fun _ => ?_, fun _ => ?_⟩ <;> decide

theorem test_witness_AutoSeed : State.reset.engine.init = false := rfl

theorem test_witness_AutoSeed_once :
    (withEngine (sparse 0 0#64 311#16)).engine.init = true ∧ Instr.save ≠ .load [] ∧
      exec .save (withEngine (sparse 0 0#64 311#16)) =
        .next ((withEngine (sparse 0 0#64 311#16)).answered (sparse 0 0#64 311#16)
          { status := .ok, payload := .bytes (saveImage (sparse 0 0#64 311#16)) }) := by
  refine ⟨by decide, by decide, ?_⟩
  simp only [exec, execSave, complete]
  rfl

theorem test_witness_ValueStream :
    (withEngine (sparse 0 0#64 312#16)).engine.init = true ∧ (withEngine (sparse 0 0#64 312#16)).engine.idx.toNat ≤ 312 := by
  decide

theorem test_witness_AllZeroArray :
    let e : Engine := { mt := Vector.replicate 312 0#64, idx := 312#16, init := true }
    (withEngine e).engine.mt = Vector.replicate 312 0#64 ∧ (withEngine e).engine.init = true ∧
      (withEngine e).engine.idx.toNat ≤ 312 := ⟨rfl, rfl, by decide⟩

theorem test_witness_CursorBeyond312 :
    (withEngine (sparse 0 0#64 313#16)).engine.init = true ∧ 313 ≤ (withEngine (sparse 0 0#64 313#16)).engine.idx.toNat ∧
      (Instr.seed 5#64).admitted = true ∧ Instr.next64.admitted = true := by
  decide

/-- 93_implementation_defined.md U6: no step for any command, SEED among them. -/
theorem test_step_refuses_seed_in_an_unreachable_state :
    isRefused .cursorOutOfRange (step { withEngine (sparse 0 0#64 313#16) with inbox := 0#8 :: List.replicate 8 0#8 }) = true := by
  decide

theorem test_witness_SaveWrites :
    State.reset.engine.init = false ∧ (withEngine (sparse 0 1#64 312#16)).engine.init = true ∧
      (withEngine (sparse 0 1#64 312#16)).engine.idx.toNat ≤ 312 := by decide

theorem test_witness_MemWriteSequence : (List.replicate 2498 0xAA#8).length = 2498 := by
  rw [List.length_replicate]

theorem test_witness_WrongLength :
    State.reset.Inv ∧ ∀ n, n = 1 ∨ n = 2497 ∨ n = 2499 →
      (List.replicate n 0#8).length ≠ 0 ∧ (List.replicate n 0#8).length ≠ 2498 ∧
        (List.replicate n 0#8).length ≤ Config.loadlenMax := by
  have hmax := Config.loadlenMax_ge
  refine ⟨test_reset_inv, fun n hn => ?_⟩
  simp only [List.length_replicate]
  omega

theorem test_witness_RoundTrip :
    (withEngine (sparse 1 1#64 311#16)).Inv ∧ (sparse 1 1#64 311#16).idx.toNat ≤ 311 ∧
      (withEngine (sparse 1 1#64 312#16)).Inv ∧ (sparse 1 1#64 312#16).idx.toNat = 312 ∧ State.reset.Inv := by
  refine ⟨fun _ => ?_, ?_, fun _ => ?_, ?_, fun h => absurd h (by decide)⟩ <;> decide

end Sys2Proof.Tests
end

section
/-! The state after reset: what its array holds, beside the fields that Laws/State.lean reads. -/

namespace Sys2Proof.Machine

@[simp] theorem Engine.fresh_mt : Engine.fresh.mt = Vector.replicate 312 0#64 := rfl

/-- Settles O1: reset holds the fresh engine, whose flag is clear and whose array repeats the zero word. -/
theorem resetLeavesTheEngineUninitialised : Obligations.ResetLeavesTheEngineUninitialised := by
  refine ⟨Engine.fresh_init, fun i hi => ?_⟩
  simp only [State.reset_engine, Engine.fresh_mt, Vector.getElem_replicate]

end Sys2Proof.Machine
end

section
/-! Seeding: the words that SEED_BODY's fill leaves in the array (rule R131), and SEED's answer. -/

namespace Sys2Proof.Machine

/-- Where rule R26's invariant holds, every effect is what `exec` answers with. -/
theorem exec_of_inv {i : Instr} {s : State} {e : Engine} {r : Response} (hinv : s.Inv) (h : Effect i s.engine e r) :
    exec i s = .next (s.answered e r) :=
  exec_of_effect ((cursorLegal_iff s.engine).mpr hinv) h

/-- The word that the fill writes to slot `i + 1` after the word `p` in slot `i`, with the spec's numerals (rule R131). -/
def seedNext (i : Nat) (p : Word) : Word :=
  6364136223846793005#64 * (p ^^^ (p >>> 62)) + BitVec.ofNat 64 (i + 1)

/-- Slot 0 holds `v`, and each of the `n` slots after it the word computed from the slot before. -/
def SeedPrefix (v : Word) (n : Nat) (mt : Vector Word 312) : Prop :=
  mtRead mt 0 = v ∧ ∀ i < n, mtRead mt (i + 1) = seedNext i (mtRead mt i)

/-- An iteration of the fill computes the next word from the slot below the one it writes. -/
theorem seedStep_succ (n : Nat) (mt : Vector Word 312) :
    seedStep (n + 1) mt = mtWrite mt (n + 1) (seedNext n (mtRead mt n)) := rfl

/-- The iteration that writes slot `n + 1` lengthens the prefix by that slot: it reads slot `n`, the last one written, and
leaves the slots up to `n` alone. -/
theorem SeedPrefix.step {v : Word} {n : Nat} {mt : Vector Word 312} (h : SeedPrefix v n mt) (hn : n < 311) :
    SeedPrefix v (n + 1) (seedStep (n + 1) mt) := by
  obtain ⟨hzero, hnext⟩ := h
  have hbelow : ∀ k, k ≤ n → mtRead (seedStep (n + 1) mt) k = mtRead mt k := fun k hk => by
    rw [seedStep_succ, mtRead_mtWrite_other _ _ _ _ (by omega)]
  refine ⟨(hbelow 0 n.zero_le).trans hzero, fun i hi => ?_⟩
  rw [hbelow i (by omega)]
  rcases Nat.lt_succ_iff_lt_or_eq.mp hi with hlt | rfl
  · rw [hbelow (i + 1) hlt, hnext i hlt]
  · rw [seedStep_succ, mtRead_mtWrite_same _ _ _ (by omega)]

/-- The whole fill, whatever the array held before (rule R131). -/
theorem seedFill_prefix (v : Word) (mt : Vector Word 312) : SeedPrefix v 311 (seedFill v mt) := by
  refine forUp_induct (P := SeedPrefix v) seedStep 1 311 (mtWrite mt 0 v) ?_ fun n m hn hm => ?_
  · exact ⟨mtRead_mtWrite_same mt 0 v (by omega), fun i hi => absurd hi i.not_lt_zero⟩
  · rw [Nat.add_comm 1 n]
    exact hm.step hn

/-- Slot 0 of a seeded array holds the seed. -/
theorem seedFill_getElem_zero (v : Word) (mt : Vector Word 312) : (seedFill v mt)[0] = v := by
  rw [← mtRead_eq_getElem _ 0 (by omega)]
  exact (seedFill_prefix v mt).1

/-- Every later slot of a seeded array holds the word computed from the slot before it. -/
theorem seedFill_getElem_succ (v : Word) (mt : Vector Word 312) (i : Nat) (h : i < 311) :
    (seedFill v mt)[i + 1] = seedNext i (seedFill v mt)[i] := by
  rw [← mtRead_eq_getElem _ (i + 1) (by omega), ← mtRead_eq_getElem _ i (by omega)]
  exact (seedFill_prefix v mt).2 i h

/-- Settles O26: SEED answers with SEED_BODY's engine, and the fill's loop keeps the prefix already written. -/
theorem seedFillsTheArrayFromItsOperand : Obligations.SeedFillsTheArrayFromItsOperand := fun v s hinv =>
  ⟨seedFill v s.engine.mt, exec_of_inv hinv (.seed v s.engine), rfl, seedFill_getElem_zero v s.engine.mt,
    seedFill_getElem_succ v s.engine.mt⟩

end Sys2Proof.Machine
end

section
/-! The twist-and-temper pipeline, word by word: the bits of the word `x` and MAG (rule R153), and TEMPER's chain (rule
R157). -/

namespace Sys2Proof.Machine

/-- LOWER_MASK selects bits 30:0. -/
@[simp] theorem lowerMask_getLsbD (n : Nat) : lowerMask.getLsbD n = decide (n < 31) := by
  have hmask : lowerMask = BitVec.ofNat 64 (2 ^ 31 - 1) := rfl
  rw [hmask, BitVec.getLsbD_ofNat, Nat.testBit_two_pow_sub_one, ← Bool.decide_and, decide_eq_decide]
  omega

/-- The two masks split the word: no bit is in both, and none is in neither. -/
theorem upperMask_eq_not_lowerMask : upperMask = ~~~lowerMask := rfl

/-- UPPER_MASK selects bits 63:31. -/
@[simp] theorem upperMask_getLsbD (n : Nat) : upperMask.getLsbD n = decide (31 ≤ n ∧ n < 64) := by
  rw [upperMask_eq_not_lowerMask, BitVec.getLsbD_not, lowerMask_getLsbD, ← decide_not, ← Bool.decide_and,
    decide_eq_decide]
  omega

/-- Each bit of `x` comes from exactly one of the two slots (rule R153). -/
theorem twistWord_getLsbD (cur nxt : Word) {n : Nat} (hn : n < 64) :
    (twistWord cur nxt).getLsbD n = if 31 ≤ n then cur.getLsbD n else nxt.getLsbD n := by
  simp only [twistWord, BitVec.getLsbD_or, BitVec.getLsbD_and, upperMask_getLsbD, lowerMask_getLsbD]
  split
  case isTrue hhigh => simp [hhigh, hn, Nat.not_lt.mpr hhigh]
  case isFalse hlow => simp [hlow, Nat.not_le.mp hlow]

/-- MAG reads one bit of its operand (rule R153). -/
theorem mag_eq_ite_getLsbD (x : Word) : mag x = if x.getLsbD 0 then matrixA else 0#64 := by
  rw [mag, BitVec.and_one_eq_setWidth_ofBool_getLsbD]
  cases x.getLsbD 0
  case false => rfl
  case true => rfl

/-- Settles O33: bit by bit through the two masks; MAG's bit 0 is below bit 31, so it is the next slot's. -/
theorem twistWordJoinsTwoSlots : Obligations.TwistWordJoinsTwoSlots := by
  refine ⟨fun cur nxt n hn => twistWord_getLsbD cur nxt hn, fun cur nxt => ?shifted, fun cur nxt => ?magBit,
    fun _ _ _ => rfl⟩
  case shifted =>
    rw [BitVec.getLsbD_ushiftRight]
    exact BitVec.getLsbD_of_ge _ _ (by omega)
  case magBit =>
    have hbit : (twistWord cur nxt).getLsbD 0 = nxt.getLsbD 0 := twistWord_getLsbD cur nxt (by omega)
    rw [mag_eq_ite_getLsbD, hbit, matrixA]

/-- Settles O39: TEMPER composes its stages in the rule's order, each with the rule's shift and mask; the worked example is
evaluated. -/
theorem temperChainsItsFourStages : Obligations.TemperChainsItsFourStages := by
  refine ⟨fun y => ?chain, by decide⟩
  simp only [temper, temperStageA, temperStageB, temperStageC, temperStageD, temperD, temperB, temperC]

end Sys2Proof.Machine
end

section
/-! Value production: the two tests a request makes before it reads (rule R170), the auto-seed (rule R171), and NEXT64's
first value on a fresh engine. -/

namespace Sys2Proof.Machine

/-- The auto-seed test with the spec's numeral (rule R170). -/
theorem autoSeed_eq_ite (e : Engine) : autoSeed e = if e.init = false then seedBody 5489#64 e else e := by
  cases hinit : e.init
  case false => simp [autoSeed, hinit, defaultSeed]
  case true => simp [autoSeed, hinit]

/-- The exhausted test with the spec's numeral (rule R170). -/
theorem lazyTwist_eq_ite (e : Engine) : lazyTwist e = if 312 ≤ e.idx.toNat then twistBody e else e := by
  simp only [lazyTwist, exhausted, decide_eq_true_eq]

@[simp] theorem autoSeed_of_init {e : Engine} (h : e.init = true) : autoSeed e = e := by
  simp [autoSeed, h]

@[simp] theorem autoSeed_init (e : Engine) : (autoSeed e).init = true := by
  cases hinit : e.init
  case false => simp [autoSeed, hinit]
  case true => simp [hinit]

/-- The auto-seed done beforehand changes nothing of the request: it is not done again. -/
@[simp] theorem readyEngine_autoSeed (e : Engine) : readyEngine (autoSeed e) = readyEngine e := by
  rw [readyEngine, autoSeed_of_init (autoSeed_init e), readyEngine]

@[simp] theorem nextEngine_autoSeed (e : Engine) : nextEngine (autoSeed e) = nextEngine e := by
  simp only [nextEngine, readyEngine_autoSeed]

@[simp] theorem nextValue_autoSeed (e : Engine) : nextValue (autoSeed e) = nextValue e := by
  simp only [nextValue, readyEngine_autoSeed]

/-- The value read from the engine made ready, whose cursor is a slot number (rule R170). -/
theorem nextValue_eq_temper_getElem (e : Engine) :
    nextValue e = temper ((readyEngine e).mt[(readyEngine e).idx.toNat]'(readyEngine_ready e).2) := by
  rw [nextValue, mtRead_eq_getElem]

/-- Rule R26's invariant says nothing of an uninitialised engine. -/
theorem State.inv_of_init_false {s : State} (h : s.engine.init = false) : s.Inv := fun hinit =>
  absurd (hinit.symm.trans h) (by decide)

/-- Where rule R26's invariant holds, NEXT64 answers with the tempered value. -/
theorem exec_next64_of_inv {s : State} (hinv : s.Inv) :
    exec .next64 s =
      .next (s.answered (nextEngine s.engine) { status := .ok, payload := .word (nextValue s.engine) }) :=
  exec_of_inv hinv (.next64 s.engine)

/-- Where rule R26's invariant holds, NEXT63 answers with NEXT64's engine and its value shifted right by one. -/
theorem exec_next63_of_inv {s : State} (hinv : s.Inv) :
    exec .next63 s =
      .next (s.answered (nextEngine s.engine) { status := .ok, payload := .word (nextValue s.engine >>> 1) }) :=
  exec_of_inv hinv (.next63 s.engine)

/-- A value request has the same effect before and after the auto-seed (rule R171). -/
theorem Effect.value_request {i : Instr} (hi : i = .next64 ∨ i = .next63) (e : Engine) :
    ∃ r, Effect i e (nextEngine e) r ∧ Effect i (autoSeed e) (nextEngine e) r := by
  rcases hi with rfl | rfl
  · exact ⟨_, .next64 e, by simpa using Effect.next64 (autoSeed e)⟩
  · exact ⟨_, .next63 e, by simpa using Effect.next63 (autoSeed e)⟩

/-- No command but LOAD of the empty operand clears INIT (rule R27). -/
theorem Effect.keeps_init {i : Instr} {e e' : Engine} {r : Response} (h : Effect i e e' r) (hinit : e.init = true)
    (hi : i ≠ .load []) : e'.init = true := by
  cases h with
  | seed | seedm | load => rfl
  | next64 | next63 => exact (readyEngine_ready e).1
  | loadEmpty => exact absurd rfl hi
  | emptyKey | saveEmpty | save | loadSize | loadIndex | reserved6 | reserved7 => exact hinit

/-- Settles O43: the request seeds with 5489 exactly when it finds INIT = 0, so a request after SEED 5489 finds the same
engine ready; INIT falls through LOAD of the empty operand alone. -/
theorem autoSeedIsSeed5489 : Obligations.AutoSeedIsSeed5489 := by
  refine ⟨fun i s hi hinit => ?sameAsSeeded, fun i s t hexec hinit hi => ?initStays⟩
  case sameAsSeeded =>
    obtain ⟨r, hplain, hafterSeed⟩ := Effect.value_request hi s.engine
    rw [autoSeed_eq_ite, if_pos hinit] at hafterSeed
    have hinv : s.Inv := State.inv_of_init_false hinit
    have hseededInv : (s.answered (seedBody 5489#64 s.engine) { status := .ok, payload := .none }).Inv :=
      fun _ => le_of_eq rfl
    exact ⟨_, nextEngine s.engine, r, exec_of_inv hinv (.seed _ _), exec_of_inv hseededInv hafterSeed,
      exec_of_inv hinv hplain, (readyEngine_ready s.engine).1⟩
  case initStays =>
    obtain ⟨-, e, r, heffect, rfl⟩ := exec_next hexec
    exact heffect.keeps_init hinit hi

/-- The first value of a fresh engine (rule R170's worked example), evaluated through the auto-seed and the first TWIST. -/
theorem nextValue_fresh : nextValue Engine.fresh = 0xC96D191CF6F6AEA6#64 := by decide +kernel

/-- The first value of a fresh engine is read from slot 0 of a twisted array, so the cursor left is 1. -/
theorem nextEngine_fresh_idx : (nextEngine Engine.fresh).idx = 1#16 := rfl

/-- Settles O40: the two tests make the engine ready, whose cursor is a slot number. -/
theorem next64FollowsItsRule : Obligations.Next64FollowsItsRule := by
  refine ⟨fun s hinv => ?rule, nextEngine Engine.fresh, nextEngine_fresh_idx, (readyEngine_ready _).1, ?fresh⟩
  case rule =>
    simp only [← autoSeed_eq_ite, ← lazyTwist_eq_ite]
    refine ⟨(readyEngine_ready s.engine).2, ?_⟩
    rw [exec_next64_of_inv hinv, nextValue_eq_temper_getElem]
    rfl
  case fresh =>
    rw [exec_next64_of_inv (State.inv_of_init_false Engine.fresh_init), State.reset_engine, nextValue_fresh]

/-- Settles O41: both commands leave the one engine and answer from the one value. -/
theorem next63IsNext64Shifted : Obligations.Next63IsNext64Shifted := by
  refine ⟨fun s hinv => ?shifted, nextEngine Engine.fresh, ?fresh⟩
  case shifted =>
    exact ⟨nextEngine s.engine, nextValue s.engine, exec_next64_of_inv hinv, exec_next63_of_inv hinv⟩
  case fresh =>
    have hhalf : (0xC96D191CF6F6AEA6#64 : Word) >>> 1 = 0x64B68C8E7B7B5753#64 := by decide
    rw [exec_next63_of_inv (State.inv_of_init_false Engine.fresh_init), State.reset_engine, nextValue_fresh, hhalf]

end Sys2Proof.Machine
end

section
/-! Bytes, numbers and image fields, byte by byte: the sum that MemRead is (rule R53), and the bytes that SAVE lays out
(rule R52). -/

namespace Sys2Proof

/-- MemRead's sum (rule R53), with 0 for the bytes past the end. -/
theorem leValue_take (n : Nat) (bs : List Byte) :
    leValue (bs.take n) = ∑ b ∈ Finset.range n, (bs.getD b 0#8).toNat * 2 ^ (8 * b) := by
  induction n generalizing bs with
  | zero => simp [leValue]
  | succ n ih =>
    cases bs with
    | nil => simp [leValue]
    | cons a as =>
      rw [List.take_succ_cons, leValue, ih as, Finset.sum_range_succ', Finset.mul_sum, Nat.add_comm]
      congr 1
      · -- each later byte weighs 256 times what it weighs in the tail
        refine Finset.sum_congr rfl fun b _ => ?_
        rw [List.getD_cons_succ, Nat.mul_succ, Nat.pow_add, Nat.mul_left_comm, Nat.mul_comm 256]
      · simp

/-- Byte `b` of a bit vector's bytes is its bits `8b + 7` down to `8b` (rule R52). -/
theorem leBytes_toNat_getElem? {w : Nat} (v : BitVec w) {n b : Nat} (h : b < n) :
    (leBytes n v.toNat)[b]? = some (v.extractLsb' (8 * b) 8) := by
  rw [leBytes_getElem? n v.toNat b h, BitVec.extractLsb', Nat.shiftRight_eq_div_pow, Nat.pow_mul]

namespace Machine

/-- Words laid out one behind the other: byte `b` of word `k` stands at offset `8k + b` (rule R51). -/
theorem flatMap_leBytes_getElem? (l : List Word) {k b : Nat} (hk : k < l.length) (hb : b < 8) :
    (l.flatMap fun w => leBytes 8 w.toNat)[8 * k + b]? = some (l[k].extractLsb' (8 * b) 8) := by
  induction l generalizing k with
  | nil => exact absurd hk (Nat.not_lt_zero k)
  | cons w ws ih =>
    have hfirst : (leBytes 8 w.toNat).length = 8 := leBytes_length 8 w.toNat
    rw [List.flatMap_cons]
    cases k with
    | zero =>
      rw [List.getElem?_append_left (by omega), Nat.mul_zero, Nat.zero_add]
      exact leBytes_toNat_getElem? w hb
    | succ k =>
      have hoffset : 8 * (k + 1) + b - 8 = 8 * k + b := by omega
      rw [List.getElem?_append_right (by omega), hfirst, hoffset]
      exact ih (Nat.lt_of_succ_lt_succ hk)

/-- The words of a full image (rule R51). -/
theorem saveImage_getElem?_word (e : Engine) {k b : Nat} (hk : k < 312) (hb : b < 8) :
    (saveImage e)[8 * k + b]? = some (e.mt[k].extractLsb' (8 * b) 8) := by
  have hslots : e.mt.toList.length = 312 := Vector.length_toList
  rw [saveImage, List.getElem?_append_left (by rw [flatMap_leBytes_length]; omega),
    flatMap_leBytes_getElem? e.mt.toList (by omega) hb, Vector.getElem_toList]

/-- The index field of a full image (rule R51). -/
theorem saveImage_getElem?_index (e : Engine) {b : Nat} (hb : b < 2) :
    (saveImage e)[2496 + b]? = some (e.idx.extractLsb' (8 * b) 8) := by
  have hwords : (e.mt.toList.flatMap fun w => leBytes 8 w.toNat).length = 2496 := by
    rw [flatMap_leBytes_length, Vector.length_toList]
  rw [saveImage, List.getElem?_append_right (by omega), hwords, Nat.add_sub_cancel_left]
  exact leBytes_toNat_getElem? e.idx hb

/-- MemRead as the sum of rule R53. -/
theorem memRead_eq_sum (img : List Byte) (addr n : Nat) :
    memRead img addr n = ∑ b ∈ Finset.range n, (img.getD (addr + b) 0#8).toNat * 2 ^ (8 * b) := by
  simp only [memRead, leValue_take, List.getD_eq_getElem?_getD, List.getElem?_drop]

/-- MemRead of `n` bytes gives a number of `8n` bits. -/
theorem memRead_lt (img : List Byte) (addr n : Nat) : memRead img addr n < 256 ^ n :=
  Nat.lt_of_lt_of_le (leValue_lt _) (Nat.pow_le_pow_right (by decide) (List.length_take_le n _))

/-- The index field from its two bytes (rule R88). -/
theorem imageIndex_eq (img : List Byte) :
    imageIndex img = (img.getD 2496 0#8).toNat + 256 * (img.getD 2497 0#8).toNat := by
  simp only [imageIndex, imgIdxOff, memRead_eq_sum, Finset.sum_range_succ, Finset.sum_range_zero, Nat.reduceAdd]
  omega

/-- Word `k` of a LOAD operand, which MemRead's 8 bytes fill without a wrap (rules R53, R88). -/
theorem imageWords_getElem_toNat (img : List Byte) {k : Nat} (hk : k < 312) :
    (imageWords img)[k].toNat = ∑ b ∈ Finset.range 8, (img.getD (8 * k + b) 0#8).toNat * 2 ^ (8 * b) := by
  rw [← mtRead_eq_getElem _ k hk, imageWords_read img k hk, BitVec.toNat_ofNat, ← memRead_eq_sum]
  exact Nat.mod_eq_of_lt (memRead_lt img (8 * k) 8)

/-- The index that a valid image puts in place, which fits IDX's 16 bits (rule R88). -/
theorem loadedEngine_idx_toNat (img : List Byte) : (loadedEngine img).idx.toNat = imageIndex img := by
  rw [loadedEngine_idx, BitVec.toNat_ofNat]
  exact Nat.mod_eq_of_lt (imageIndex_lt img)

end Machine

end Sys2Proof
end

section
/-! Serialization: what SAVE gives (rule R185) and the outcomes of LOAD of a non-empty operand (rules R189, R190, R191). -/

namespace Sys2Proof.Machine

/-- Settles O48: both cases answer with the engine as it was, and every byte of the image is a word's or the index's. -/
theorem saveWritesTheImageAndChangesNothing : Obligations.SaveWritesTheImageAndChangesNothing := by
  refine ⟨fun s hinit => ?empty, fun s hinit hidx => ?full⟩
  case empty => exact exec_of_inv (State.inv_of_init_false hinit) (.saveEmpty s.engine hinit)
  case full =>
    exact ⟨saveImage s.engine, exec_of_inv (fun _ => hidx) (.save s.engine hinit), saveImage_length s.engine,
      fun k b hk hb => saveImage_getElem?_word s.engine hk hb,
      saveImage_getElem?_index s.engine (b := 0) (by decide), saveImage_getElem?_index s.engine (b := 1) (by decide)⟩

/-- Settles O51: the index field is within range, so LOAD leaves the image's own engine, read field by field. -/
theorem loadPutsAValidImageInPlace : Obligations.LoadPutsAValidImageInPlace := by
  intro img s hinv hlen hidx
  rw [← imageIndex_eq] at hidx ⊢
  exact ⟨imageWords img, BitVec.ofNat 16 (imageIndex img),
    exec_of_inv hinv (.load img s.engine hlen (Nat.lt_succ_of_le hidx)), loadedEngine_idx_toNat img,
    fun k hk => imageWords_getElem_toNat img hk⟩

/-- Settles O53: a non-empty operand of another length is answered before any byte is read. -/
theorem wrongLengthIsRejected : Obligations.WrongLengthIsRejected := fun img s hinv hne hlen hmax =>
  exec_of_inv hinv (.loadSize img s.engine (List.ne_nil_of_length_pos (Nat.pos_of_ne_zero hne)) hmax hlen)

/-- Settles O54: the index that LOAD compares is the number of the two bytes, on all 16 bits. -/
theorem indexOutOfRangeIsRejected : Obligations.IndexOutOfRangeIsRejected := by
  intro img s hinv hlen hidx
  rw [← imageIndex_eq] at hidx
  exact exec_of_inv hinv (.loadIndex img s.engine hlen hidx)

end Sys2Proof.Machine
end

section
/-! Errors: the one response a command adds, and what an error leaves of the engine (rule R213). -/

namespace Sys2Proof.Machine

/-- The response found in front of the earlier ones is the one the command gave. -/
theorem State.answered_responses_eq_cons_iff {s : State} {e : Engine} {r r' : Response} :
    (s.answered e r).responses = r' :: s.responses ↔ r = r' := by
  rw [State.answered_responses, List.cons_eq_cons, and_iff_left rfl]

/-- An effect whose response is an error leaves the engine as it was (rule R213). -/
theorem Effect.engine_of_error {i : Instr} {e e' : Engine} {r : Response} (h : Effect i e e' r) (herr : r.status ≠ .ok) :
    e' = e := by
  cases h with
  | emptyKey | loadSize | loadIndex | reserved6 | reserved7 => rfl
  | seed | seedm | next64 | next63 | saveEmpty | save | loadEmpty | load => exact absurd rfl herr

/-- Settles O16: every outcome of a command that writes the engine answers with status OK. -/
theorem errorsChangeNoEngineState : Obligations.ErrorsChangeNoEngineState := by
  intro i s t r hexec hresp herr
  obtain ⟨-, e, r', heffect, rfl⟩ := exec_next hexec
  obtain rfl := State.answered_responses_eq_cons_iff.mp hresp
  exact heffect.engine_of_error herr

end Sys2Proof.Machine
end

section
/-! The byte form of a command (log entry 2): a word, a length and a key are read back from their bytes, and what a form
accepts is what `encode` writes. -/

namespace Sys2Proof

/-- Reading back a number that fits its bytes. -/
theorem leValue_leBytes_of_lt {n v : Nat} (h : v < 256 ^ n) : leValue (leBytes n v) = v := by
  rw [leValue_leBytes, Nat.mod_eq_of_lt h]

/-- Writing back the number of a byte sequence whose length is known. -/
theorem leBytes_leValue_of_length {n : Nat} {bs : List Byte} (h : bs.length = n) : leBytes n (leValue bs) = bs := by
  rw [← h, leBytes_leValue]

/-- A word's 8 bytes give the word back. -/
theorem ofNat_leValue_leBytes (w : Word) : BitVec.ofNat 64 (leValue (leBytes 8 w.toNat)) = w := by
  rw [leValue_leBytes_of_lt w.isLt, BitVec.ofNat_toNat, BitVec.setWidth_eq]

/-- The number of the 8 bytes in front of a byte sequence is a word's. -/
theorem leValue_take_lt (bs : List Byte) : leValue (bs.take 8) < 2 ^ 64 :=
  Nat.lt_of_lt_of_le (leValue_lt _) (Nat.pow_le_pow_right (by decide) (List.length_take_le 8 bs))

/-- The word read from the front of a byte sequence is written back as its first 8 bytes. -/
theorem leBytes_ofNat_leValue_take {bs : List Byte} (h : 8 ≤ bs.length) :
    leBytes 8 (BitVec.ofNat 64 (leValue (bs.take 8))).toNat = bs.take 8 := by
  rw [BitVec.toNat_ofNat, Nat.mod_eq_of_lt (leValue_take_lt bs), leBytes_leValue_of_length (List.length_take_of_le h)]

/-- Words laid out one behind the other are read back, whatever follows them. -/
theorem leWords_flatMap_append (ws : List Word) (rest : List Byte) :
    leWords ws.length ((ws.flatMap fun w => leBytes 8 w.toNat) ++ rest) = ws := by
  induction ws with
  | nil => rfl
  | cons w ws ih =>
    have hfirst : (leBytes 8 w.toNat).length = 8 := leBytes_length 8 w.toNat
    rw [List.length_cons, leWords, List.flatMap_cons, List.append_assoc, List.take_left' hfirst, List.drop_left' hfirst,
      ofNat_leValue_leBytes, ih]

/-- The words read from a byte sequence are written back as its bytes. -/
theorem flatMap_leWords {n : Nat} {bs : List Byte} (h : 8 * n ≤ bs.length) :
    ((leWords n bs).flatMap fun w => leBytes 8 w.toNat) = bs.take (8 * n) := by
  induction n generalizing bs with
  | zero => rfl
  | succ n ih =>
    have htail : 8 * n ≤ (bs.drop 8).length := by rw [List.length_drop]; omega
    rw [leWords, List.flatMap_cons, leBytes_ofNat_leValue_take (by omega), ih htail, Nat.mul_succ, Nat.add_comm (8 * n) 8,
      List.take_add]

/-- The first byte of an encoding selects the command's format (rule R82). -/
theorem decode_encode_append (i : Instr) (rest : List Byte) :
    decode (encode i ++ rest) = decodeOp (opcode i).toNat (encodeOperand i ++ rest) := by
  cases i <;> rfl

/-- The format CMD-W takes a word's 8 bytes. -/
theorem decodeWordForm_leBytes (w : Word) (rest : List Byte) :
    decodeWordForm (leBytes 8 w.toNat ++ rest) = .ok (.seed w, rest) := by
  have hlen : (leBytes 8 w.toNat).length = 8 := leBytes_length 8 w.toNat
  rw [decodeWordForm, if_pos (by simp), List.take_left' hlen, List.drop_left' hlen, ofNat_leValue_leBytes]

/-- The format CMD-K takes the length's 8 bytes and then that many words. -/
theorem decodeKeyForm_leBytes {key : List Word} (rest : List Byte) (h : key.length < 2 ^ 64) :
    decodeKeyForm (leBytes 8 key.length ++ ((key.flatMap fun w => leBytes 8 w.toNat) ++ rest)) =
      .ok (.seedm key, rest) := by
  have hlen : (leBytes 8 key.length).length = 8 := leBytes_length 8 key.length
  rw [decodeKeyForm, if_pos (by simp), List.take_left' hlen, List.drop_left' hlen, leValue_leBytes_of_lt h,
    if_pos (by rw [List.length_append, Machine.flatMap_leBytes_length]; omega), leWords_flatMap_append,
    List.drop_left' (Machine.flatMap_leBytes_length key)]

/-- The format CMD-B takes the length's 8 bytes and then that many bytes. -/
theorem decodeBytesForm_leBytes {img : List Byte} (rest : List Byte) (h : img.length < 2 ^ 64) :
    decodeBytesForm (leBytes 8 img.length ++ (img ++ rest)) = .ok (.load img, rest) := by
  have hlen : (leBytes 8 img.length).length = 8 := leBytes_length 8 img.length
  rw [decodeBytesForm, if_pos (by simp), List.take_left' hlen, List.drop_left' hlen, leValue_leBytes_of_lt h,
    if_pos (by simp), List.take_left' rfl, List.drop_left' rfl]

/-- Settles O9: the op byte selects the format, and the format reads its own fields back. -/
theorem decodeOfEncodeIsTheCommand : Obligations.DecodeOfEncodeIsTheCommand := by
  intro i rest hwf
  rw [decode_encode_append]
  cases i with
  | seed word => exact decodeWordForm_leBytes word rest
  | seedm key =>
    rw [encodeOperand, List.append_assoc]
    exact decodeKeyForm_leBytes rest (of_decide_eq_true hwf)
  | load img =>
    rw [encodeOperand, List.append_assoc]
    exact decodeBytesForm_leBytes rest (of_decide_eq_true hwf)
  | next64 | next63 | save | reserved6 | reserved7 => rfl

/-- A byte sequence is a command's operand followed by `rest`, and the operand's length can be written in 8 bytes. -/
def IsOperandOf (bs : List Byte) (i : Instr) (rest : List Byte) : Prop :=
  bs = encodeOperand i ++ rest ∧ i.wf = true

/-- The format CMD-W accepts 8 bytes and no fewer. -/
theorem decodeWordForm_eq_ok {bs rest : List Byte} {i : Instr} (h : decodeWordForm bs = .ok (i, rest)) :
    (∃ word, i = .seed word) ∧ IsOperandOf bs i rest := by
  unfold decodeWordForm at h
  split at h
  case isFalse => cases h
  case isTrue hlen =>
    cases h
    refine ⟨⟨_, rfl⟩, ?_, rfl⟩
    rw [encodeOperand, leBytes_ofNat_leValue_take hlen, List.take_append_drop]

/-- The format CMD-K accepts a length and as many words as it announces. -/
theorem decodeKeyForm_eq_ok {bs rest : List Byte} {i : Instr} (h : decodeKeyForm bs = .ok (i, rest)) :
    (∃ key, i = .seedm key) ∧ IsOperandOf bs i rest := by
  unfold decodeKeyForm at h
  split at h
  case isFalse => cases h
  case isTrue hlen =>
    split at h
    case isFalse => cases h
    case isTrue hwords =>
      cases h
      refine ⟨⟨_, rfl⟩, ?_, ?_⟩
      · rw [encodeOperand, leWords_length, leBytes_leValue_of_length (List.length_take_of_le hlen), flatMap_leWords hwords,
          List.append_assoc, List.take_append_drop, List.take_append_drop]
      · rw [Instr.wf, leWords_length, decide_eq_true_eq]
        exact leValue_take_lt bs

/-- The format CMD-B accepts a length and as many bytes as it announces. -/
theorem decodeBytesForm_eq_ok {bs rest : List Byte} {i : Instr} (h : decodeBytesForm bs = .ok (i, rest)) :
    (∃ img, i = .load img) ∧ IsOperandOf bs i rest := by
  unfold decodeBytesForm at h
  split at h
  case isFalse => cases h
  case isTrue hlen =>
    split at h
    case isFalse => cases h
    case isTrue hbytes =>
      cases h
      refine ⟨⟨_, rfl⟩, ?_, ?_⟩
      · rw [encodeOperand, List.length_take_of_le hbytes, leBytes_leValue_of_length (List.length_take_of_le hlen),
          List.append_assoc, List.take_append_drop, List.take_append_drop]
      · rw [Instr.wf, List.length_take_of_le hbytes, decide_eq_true_eq]
        exact leValue_take_lt bs

/-- What the decoder accepts behind an op number is the operand of a command with that op number (rules R81, R82). -/
theorem decodeOp_eq_ok {op : Nat} {bs rest : List Byte} {i : Instr} (h : decodeOp op bs = .ok (i, rest)) :
    op = (opcode i).toNat ∧ IsOperandOf bs i rest := by
  unfold decodeOp at h
  split at h
  case h_1 =>
    obtain ⟨⟨word, rfl⟩, hoperand⟩ := decodeWordForm_eq_ok h
    exact ⟨rfl, hoperand⟩
  case h_2 =>
    obtain ⟨⟨key, rfl⟩, hoperand⟩ := decodeKeyForm_eq_ok h
    exact ⟨rfl, hoperand⟩
  case h_6 =>
    obtain ⟨⟨img, rfl⟩, hoperand⟩ := decodeBytesForm_eq_ok h
    exact ⟨rfl, hoperand⟩
  case h_9 => cases h
  all_goals
    -- the formats without an operand take no byte
    cases h
    exact ⟨rfl, rfl, rfl⟩

/-- Settles O10: the op byte is the op number on 8 bits, and each format accepts only what it would write. -/
theorem decodedBytesAreTheEncoding : Obligations.DecodedBytesAreTheEncoding := by
  intro bs rest i h
  cases bs with
  | nil => cases h
  | cons b bs =>
    obtain ⟨hop, hoperand, hwf⟩ := decodeOp_eq_ok h
    have hbyte : b = (opcode i).zeroExtend 8 := by
      apply BitVec.eq_of_toNat_eq
      rw [hop, BitVec.toNat_setWidth_of_le (by decide)]
    exact ⟨by rw [hbyte, hoperand, encode, List.cons_append], hwf⟩

/-- The format CMD-W stops on fewer than 8 bytes. -/
theorem decodeWordForm_eq_error {bs : List Byte} {d : DecodeError} (h : decodeWordForm bs = .error d) :
    d = .truncated ∧ bs.length < 8 := by
  unfold decodeWordForm at h
  split at h
  case isTrue => cases h
  case isFalse hlen =>
    cases h
    exact ⟨rfl, Nat.lt_of_not_le hlen⟩

/-- The format CMD-K stops where the length or a word it announces is not there whole. -/
theorem decodeKeyForm_eq_error {bs : List Byte} {d : DecodeError} (h : decodeKeyForm bs = .error d) :
    d = .truncated ∧ (bs.length < 8 ∨ (bs.drop 8).length < 8 * leValue (bs.take 8)) := by
  unfold decodeKeyForm at h
  split at h
  case isFalse hlen =>
    cases h
    exact ⟨rfl, .inl (Nat.lt_of_not_le hlen)⟩
  case isTrue =>
    split at h
    case isTrue => cases h
    case isFalse hwords =>
      cases h
      exact ⟨rfl, .inr (Nat.lt_of_not_le hwords)⟩

/-- The format CMD-B stops where the length or a byte it announces is not there. -/
theorem decodeBytesForm_eq_error {bs : List Byte} {d : DecodeError} (h : decodeBytesForm bs = .error d) :
    d = .truncated ∧ (bs.length < 8 ∨ (bs.drop 8).length < leValue (bs.take 8)) := by
  unfold decodeBytesForm at h
  split at h
  case isFalse hlen =>
    cases h
    exact ⟨rfl, .inl (Nat.lt_of_not_le hlen)⟩
  case isTrue =>
    split at h
    case isTrue => cases h
    case isFalse hbytes =>
      cases h
      exact ⟨rfl, .inr (Nat.lt_of_not_le hbytes)⟩

/-- Settles O11: the op byte selects the format that stopped, or is beyond the 3-bit field. -/
theorem decodeStopsOnlyOnIncompleteBytes : Obligations.DecodeStopsOnlyOnIncompleteBytes := by
  intro bs d h
  cases bs with
  | nil =>
    cases h
    exact .inl ⟨rfl, rfl⟩
  | cons b rest =>
    refine .inr ⟨b, rest, rfl, ?_⟩
    simp only [decode, decodeOp] at h
    split at h
    case h_1 hop =>
      obtain ⟨rfl, hshort⟩ := decodeWordForm_eq_error h
      exact .inr ⟨rfl, .inl (BitVec.eq_of_toNat_eq hop), .inl hshort⟩
    case h_2 hop =>
      obtain ⟨rfl, hshort⟩ := decodeKeyForm_eq_error h
      have hb : b = 1#8 := BitVec.eq_of_toNat_eq hop
      exact .inr ⟨rfl, .inr (.inl hb), hshort.imp_right fun hwords => .inl ⟨hb, hwords⟩⟩
    case h_6 hop =>
      obtain ⟨rfl, hshort⟩ := decodeBytesForm_eq_error h
      have hb : b = 5#8 := BitVec.eq_of_toNat_eq hop
      exact .inr ⟨rfl, .inr (.inr hb), hshort.imp_right fun hbytes => .inr ⟨hb, hbytes⟩⟩
    case h_9 =>
      cases h
      exact .inl ⟨rfl, by grind⟩
    all_goals cases h

/-- Settles O12: the words are evaluated. -/
theorem writtenOutWordsDecode : Obligations.WrittenOutWordsDecode := by
  unfold Obligations.WrittenOutWordsDecode
  decide

/-- Settles O13: `seedPattern` is the library's two's complement pattern, whose reading is exact in the range given. -/
theorem signedSeedIsTwosComplement : Obligations.SignedSeedIsTwosComplement := by
  intro n hlow hhigh
  constructor
  · rw [Machine.seedPattern, BitVec.toNat_ofInt, Int.toNat_of_nonneg (Int.emod_nonneg n (by decide))]
    norm_num
  · rw [Machine.seedPattern, BitVec.toInt_ofInt, Int.bmod_eq_of_le (by omega) (by omega)]

/-- Settles O18: each number is read off the table. -/
theorem statusNumbersAreTheSpecs : Obligations.StatusNumbersAreTheSpecs := ⟨rfl, rfl, rfl, rfl, rfl⟩

end Sys2Proof
end

section
/-! The commands' outcomes in tables: the engine a value request is answered from (rule R170), the status, the response's
format, and the registers that each command leaves (rules R21, R25, R27). -/

namespace Sys2Proof.Machine

/-- An uninitialised engine is seeded and then twisted before the first value is read. -/
theorem readyEngine_of_init_false {e : Engine} (hinit : e.init = false) :
    readyEngine e = twistBody (seedBody 5489#64 e) := by
  rw [readyEngine, autoSeed_eq_ite, if_pos hinit, lazyTwist_eq_ite, if_pos (by simp)]

/-- An exhausted engine is twisted before the value is read. -/
theorem readyEngine_of_exhausted {e : Engine} (hinit : e.init = true) (hidx : 312 ≤ e.idx.toNat) :
    readyEngine e = twistBody e := by
  rw [readyEngine, autoSeed_of_init hinit, lazyTwist_eq_ite, if_pos hidx]

/-- An initialised engine that is not exhausted is ready as it stands. -/
theorem readyEngine_of_idx_lt {e : Engine} (hinit : e.init = true) (hidx : e.idx.toNat < 312) : readyEngine e = e := by
  rw [readyEngine, autoSeed_of_init hinit, lazyTwist_eq_ite, if_neg (Nat.not_le.mpr hidx)]

/-- IDX after a value request, by the engine that was asked (rule R25). -/
theorem nextEngine_idx_toNat_eq_ite {e : Engine} (hlegal : cursorLegal e = true) :
    (nextEngine e).idx.toNat = if e.init = false ∨ e.idx.toNat = 312 then 1 else e.idx.toNat + 1 := by
  rw [nextEngine_idx_toNat]
  cases hinit : e.init with
  | false => simp [readyEngine_of_init_false hinit]
  | true =>
    have hle := (cursorLegal_iff e).mp hlegal hinit
    rcases Nat.lt_or_eq_of_le hle with hlt | heq
    · rw [readyEngine_of_idx_lt hinit hlt, if_neg (by simp [Nat.ne_of_lt hlt])]
    · rw [readyEngine_of_exhausted hinit (Nat.le_of_eq heq.symm), twistBody_idx, if_pos (.inr heq)]
      rfl

/-- The status that a command within the bounds ends with: no state plays a part (60_exceptions.md section 1). -/
def commandStatus : Instr → Status
  | .seed _ => .ok
  | .seedm key => if key = [] then .emptyKey else .ok
  | .next64 => .ok
  | .next63 => .ok
  | .save => .ok
  | .load img =>
    if img = [] then .ok
    else if img.length ≠ 2498 then .sizeMismatch
    else if 312 ≤ imageIndex img then .indexRange
    else .ok
  | .reserved6 => .illegalCommand
  | .reserved7 => .illegalCommand

/-- An image of full length is not empty. -/
theorem ne_nil_of_length_eq_2498 {img : List Byte} (h : img.length = 2498) : img ≠ [] :=
  List.ne_nil_of_length_pos (by omega)

/-- Every effect has its command's status. -/
theorem Effect.status_eq {i : Instr} {e e' : Engine} {r : Response} (h : Effect i e e' r) :
    r.status = commandStatus i := by
  cases h with
  | seed | emptyKey | next64 | next63 | saveEmpty | save | loadEmpty | reserved6 | reserved7 => rfl
  | seedm key _ hne => rw [commandStatus, if_neg hne]
  | loadSize img _ hne _ hlen => rw [commandStatus, if_neg hne, if_pos hlen]
  | loadIndex img _ hlen hidx =>
    rw [commandStatus, if_neg (ne_nil_of_length_eq_2498 hlen), if_neg (not_not.mpr hlen), if_pos hidx]
  | load img _ hlen hidx =>
    rw [commandStatus, if_neg (ne_nil_of_length_eq_2498 hlen), if_neg (not_not.mpr hlen), if_neg (Nat.not_le.mpr hidx)]

/-- The table of causes, read from the status: a LOAD operand is empty, of another length, out of range or valid. -/
theorem commandStatus_causes (i : Instr) :
    (commandStatus i = .sizeMismatch ↔ ∃ img, i = .load img ∧ img.length ≠ 0 ∧ img.length ≠ 2498) ∧
    (commandStatus i = .indexRange ↔ ∃ img, i = .load img ∧ img.length = 2498 ∧ 312 ≤ imageIndex img) ∧
    (commandStatus i = .emptyKey ↔ i = .seedm []) ∧
    (commandStatus i = .illegalCommand ↔ i = .reserved6 ∨ i = .reserved7) := by
  cases i with
  | seedm key => by_cases hne : key = [] <;> simp [commandStatus, hne]
  | load img =>
    by_cases hne : img = []
    · simp [commandStatus, hne]
    by_cases hlen : img.length = 2498
    · by_cases hidx : 312 ≤ imageIndex img <;> simp [commandStatus, hne, hlen, hidx]
    · simp [commandStatus, hne, hlen]
  | seed | next64 | next63 | save | reserved6 | reserved7 => simp [commandStatus]

/-- Settles O17: the status is the command's, and each error's condition is read off its table. -/
theorem eachErrorHasExactlyItsCause : Obligations.EachErrorHasExactlyItsCause := by
  intro i s t r hexec hresp
  obtain ⟨-, e, r', heffect, rfl⟩ := exec_next hexec
  obtain rfl := State.answered_responses_eq_cons_iff.mp hresp
  simp only [heffect.status_eq, ← imageIndex_eq]
  exact commandStatus_causes i

/-- A response's payload has the format that its command and its status fix (rules R80, R83, R215). -/
def Response.Fits (i : Instr) (r : Response) : Prop :=
  (r.status = .ok ∧ OkPayloadFits i r.payload) ∨ (r.status ≠ .ok ∧ r.payload = .none)

/-- NEXT63's value has bit 63 clear (rule R89). -/
theorem next63Value_getLsbD_63 (d : Word) : (next63Value d).getLsbD 63 = false := by
  rw [next63Value, BitVec.getLsbD_ushiftRight]
  exact BitVec.getLsbD_of_ge _ _ (by omega)

theorem Effect.fits {i : Instr} {e e' : Engine} {r : Response} (h : Effect i e e' r) : r.Fits i := by
  cases h with
  | seed | seedm | loadEmpty | load => exact .inl ⟨rfl, rfl⟩
  | next64 => exact .inl ⟨rfl, _, rfl⟩
  | next63 => exact .inl ⟨rfl, _, rfl, next63Value_getLsbD_63 _⟩
  | saveEmpty => exact .inl ⟨rfl, _, rfl, .inl rfl⟩
  | save => exact .inl ⟨rfl, _, rfl, .inr (saveImage_length e)⟩
  | emptyKey | loadSize | loadIndex | reserved6 | reserved7 => exact .inr ⟨by decide, rfl⟩

/-- Settles O15: the answer is `State.answered`, and every effect's response fits. -/
theorem eachCommandGivesOneResponseOfItsFormat : Obligations.EachCommandGivesOneResponseOfItsFormat := by
  intro i s t hexec
  obtain ⟨-, e, r, heffect, rfl⟩ := exec_next hexec
  exact ⟨rfl, rfl, r, rfl, heffect.fits⟩

/-- A command beyond a bound is not admitted. -/
theorem BeyondBound.not_admitted {i : Instr} {q : Refusal} (h : BeyondBound i q) : i.admitted = false := by
  cases h with
  | seedm key hmax => exact decide_eq_false (Nat.not_le.mpr hmax)
  | load img hmax => exact decide_eq_false (Nat.not_le.mpr hmax)

/-- An admitted command has an effect to respond with. -/
theorem exec_of_admitted {i : Instr} (s : State) (hadm : i.admitted = true) :
    ∃ e r, Effect i s.engine e r ∧ exec i s = respond s e r := by
  rcases exec_cases i s with hresponds | ⟨q, hbeyond, -⟩
  · exact hresponds
  · exact absurd (hadm.symm.trans hbeyond.not_admitted) (by decide)

/-- A command beyond a bound is refused for it, in every state. -/
theorem exec_of_beyondBound {i : Instr} {q : Refusal} (s : State) (h : BeyondBound i q) : exec i s = .refused q := by
  rcases exec_cases i s with ⟨e, r, heffect, -⟩ | ⟨p, hp, hexec⟩
  · exact absurd h heffect.not_beyondBound
  · -- the command fixes the bound it is beyond
    cases h <;> cases hp <;> exact hexec

/-- Settles O14: the effect of an admitted command is answered where rule R26's invariant holds. -/
theorem everyAdmittedCommandIsAnswered : Obligations.EveryAdmittedCommandIsAnswered := by
  intro i s hadm hinv
  obtain ⟨e, r, heffect, -⟩ := exec_of_admitted s hadm
  exact ⟨e, r, exec_of_inv hinv heffect⟩

/-- Settles O47: an admitted command has only its response left to be refused, and the cursor is not legal. -/
theorem cursorBeyond312HasNoMeaning : Obligations.CursorBeyond312HasNoMeaning := by
  intro i s hinit hidx hadm
  obtain ⟨e, r, -, hexec⟩ := exec_of_admitted s hadm
  have hillegal : ¬ cursorLegal s.engine = true := fun hlegal => by
    have hle := (cursorLegal_iff s.engine).mp hlegal hinit
    omega
  rw [hexec, respond, if_neg hillegal]

/-- Settles O29: each command is refused for the bound its operand is beyond. -/
theorem operandsBeyondTheBoundsHaveNoResponse : Obligations.OperandsBeyondTheBoundsHaveNoResponse :=
  ⟨fun key s hmax => exec_of_beyondBound s (.seedm key hmax), fun img s hmax => exec_of_beyondBound s (.load img hmax)⟩

/-- Settles O58: the two bounds' own lemmas, and what lies within them. -/
theorem openBoundsAreWithinTheirLimits : Obligations.OpenBoundsAreWithinTheirLimits :=
  ⟨Config.keylenMax_ge, Config.keylenMax_lt, Config.loadlenMax_ge,
    fun _ hlen => decide_eq_true (hlen.trans Config.keylenMax_ge),
    fun _ hlen => decide_eq_true (hlen.trans Config.loadlenMax_ge)⟩

/-- Settles O28: the empty key's effect. -/
theorem emptyKeyIsReported : Obligations.EmptyKeyIsReported := fun s hinv => exec_of_inv hinv (.emptyKey s.engine)

/-- Settles O52: the empty operand's effect. -/
theorem emptyLoadClearsInitAlone : Obligations.EmptyLoadClearsInitAlone := fun s hinv =>
  exec_of_inv hinv (.loadEmpty s.engine)

/-- Settles O57: the effects of op 6 and 7. -/
theorem reservedOpsAreIllegal : Obligations.ReservedOpsAreIllegal := fun s hinv =>
  ⟨exec_of_inv hinv (.reserved6 s.engine), exec_of_inv hinv (.reserved7 s.engine)⟩

/-- Settles O19: one row of the table for each effect. -/
theorem initFollowsItsTable : Obligations.InitFollowsItsTable := by
  refine ⟨Engine.fresh_init, fun i s t hexec => ?_⟩
  obtain ⟨-, e, r, heffect, rfl⟩ := exec_next hexec
  simp only [State.answered_engine, ← imageIndex_eq]
  cases heffect with
  | seed | emptyKey | saveEmpty | save | loadEmpty | reserved6 | reserved7 => rfl
  | seedm key _ hne => exact (if_neg hne).symm
  | next64 | next63 => exact (readyEngine_ready s.engine).1
  | loadSize img _ hne _ hlen => simp [hne, hlen]
  | loadIndex img _ hlen hidx => simp [ne_nil_of_length_eq_2498 hlen, Nat.not_lt.mpr hidx]
  | load img _ hlen hidx => simp [ne_nil_of_length_eq_2498 hlen, hlen, hidx]

/-- Settles O20: one row of the table for each effect; a command that answers was performed with a legal cursor. -/
theorem idxFollowsItsTable : Obligations.IdxFollowsItsTable := by
  intro i s t hexec
  obtain ⟨hlegal, e, r, heffect, rfl⟩ := exec_next hexec
  simp only [State.answered_engine, ← imageIndex_eq]
  cases heffect with
  | seed | emptyKey | saveEmpty | save | loadEmpty | reserved6 | reserved7 => rfl
  | seedm key _ hne => exact (if_neg hne).symm
  | next64 | next63 => exact nextEngine_idx_toNat_eq_ite hlegal
  | loadSize img _ _ _ hlen => simp [hlen]
  | loadIndex img _ hlen hidx => simp [Nat.not_lt.mpr hidx]
  | load img _ hlen hidx => simp only [hlen, hidx, and_self, if_true, loadedEngine_idx_toNat]

/-- Settles O21: the effects that write MT are the ones the outcomes named leave out. -/
theorem mtIsLeftAloneByItsReaders : Obligations.MtIsLeftAloneByItsReaders := by
  intro i s t hexec hreader
  obtain ⟨-, e, r, heffect, rfl⟩ := exec_next hexec
  simp only [State.answered_engine, ← imageIndex_eq] at hreader ⊢
  cases heffect with
  | emptyKey | saveEmpty | save | loadEmpty | loadSize | loadIndex | reserved6 | reserved7 => rfl
  | next64 | next63 =>
    have hready : s.engine.init = true ∧ s.engine.idx.toNat < 312 := by simpa using hreader
    rw [nextEngine_mt, readyEngine_of_idx_lt hready.1 hready.2]
  | seed => simp at hreader
  | seedm key _ hne => simp [hne] at hreader
  | load img _ hlen hidx => simp [hlen, Nat.not_le.mpr hidx] at hreader

end Sys2Proof.Machine
end

section
/-! One step of the machine: when it performs a command, waits or is refused (rules R59, R222, R241), and the invariants it
keeps (rules R26, R30, R83). -/

namespace Sys2Proof.Machine

/-- A fetch with no overlap gives the command decoded and the bytes left over. -/
theorem fetch_of_decode {s : State} {i : Instr} {rest : List Byte} (hoverlap : s.overlap = false)
    (h : decode s.inbox = .ok (i, rest)) : fetch s = .ok (i, { s with inbox := rest }) := by
  simp [fetch, hoverlap, h]

/-- A step with commands presented performs the one it fetches. -/
theorem step_of_fetch {s t : State} {i : Instr} (hinbox : s.inbox ≠ []) (h : fetch s = .ok (i, t)) :
    step s = exec i t := by
  simp [step, hinbox, h]

/-- A step whose fetch fails is refused for the fetch's reason. -/
theorem step_of_fetch_error {s : State} {q : Refusal} (hinbox : s.inbox ≠ []) (h : fetch s = .error q) :
    step s = .refused q := by
  simp [step, hinbox, h]

/-- With no command presented a step leaves the state as it is (rule R241). -/
theorem step_of_inbox_nil {s : State} (h : s.inbox = []) : step s = .next s := by
  simp [step, h]

/-- Bytes that decode are not empty. -/
theorem ne_nil_of_decode {bs rest : List Byte} {i : Instr} (h : decode bs = .ok (i, rest)) : bs ≠ [] := by
  rintro rfl
  cases h

/-- Settles O5: the fetch gives the command and the remaining inbox, and the step performs it. -/
theorem stepPerformsTheDecodedCommand : Obligations.StepPerformsTheDecodedCommand := fun _ _ _ hoverlap hdecode =>
  step_of_fetch (ne_nil_of_decode hdecode) (fetch_of_decode hoverlap hdecode)

/-- A step on a state whose inbox begins with a command's encoding performs that command. -/
theorem step_of_inbox_eq_encode {s : State} {i : Instr} {rest : List Byte} (hoverlap : s.overlap = false)
    (hwf : i.wf = true) (h : s.inbox = encode i ++ rest) : step s = exec i { s with inbox := rest } := by
  refine stepPerformsTheDecodedCommand s i rest hoverlap ?_
  rw [h, decodeOfEncodeIsTheCommand i rest hwf]

/-- The command at the front of an opcode-table word is presented as its encoding. -/
theorem tableCommand_eq_encode {nbits w : Nat} {i : Instr} (h : decodeTableWord nbits w = some i) :
    tableCommand nbits w = encode i ∧ i.wf = true := by
  unfold decodeTableWord at h
  split at h
  case h_2 => cases h
  case h_1 j rest hdecode =>
    obtain rfl := Option.some.inj h
    obtain ⟨hbytes, hwf⟩ := decodedBytesAreTheEncoding _ _ _ hdecode
    refine ⟨?_, hwf⟩
    simp only [tableCommand, hdecode]
    rw [hbytes, List.length_append, Nat.add_sub_cancel_right, List.take_left' rfl]

/-- Settles O6: the bytes presented are the command's encoding, which decodes with the old inbox behind it. -/
theorem stepPerformsTheFetchWord : Obligations.StepPerformsTheFetchWord := by
  intro s nbits w i h
  obtain ⟨hcommand, hwf⟩ := tableCommand_eq_encode h
  exact step_of_inbox_eq_encode (s := s.withFetchWord nbits w) rfl hwf (by rw [State.withFetchWord_inbox, hcommand])

/-- Settles O7: the idle step, and the fetch's first test. -/
theorem stepWaitsOrRefusesOverlap : Obligations.StepWaitsOrRefusesOverlap :=
  ⟨fun _ h => step_of_inbox_nil h, fun s hinbox hoverlap =>
    step_of_fetch_error hinbox (by rw [fetch, if_pos hoverlap])⟩

/-- Why a fetch fails: an overlap, or bytes at which the decoder stops. -/
theorem fetch_eq_error {s : State} {q : Refusal} (h : fetch s = .error q) :
    (q = .overlappingCommands ∧ s.overlap = true) ∨
      (q = .malformedOp ∧ decode s.inbox = .error .opPadding) ∨
      (q = .incompleteCommand ∧ (decode s.inbox = .error .noBytes ∨ decode s.inbox = .error .truncated)) := by
  cases hoverlap : s.overlap with
  | true =>
    rw [fetch, if_pos hoverlap] at h
    cases h
    exact .inl ⟨rfl, rfl⟩
  | false =>
    cases hdecode : decode s.inbox with
    | ok p => rw [fetch_of_decode hoverlap hdecode] at h; cases h
    | error d => cases d <;> simp_all [fetch]

/-- A step is refused with commands presented alone, by the fetch or by the command it fetched. -/
theorem step_eq_refused {s : State} {q : Refusal} (h : step s = .refused q) :
    s.inbox ≠ [] ∧
      (fetch s = .error q ∨
        ∃ i rest, decode s.inbox = .ok (i, rest) ∧ exec i { s with inbox := rest } = .refused q) := by
  have hinbox : s.inbox ≠ [] := fun hnil => by
    rw [step_of_inbox_nil hnil] at h
    cases h
  refine ⟨hinbox, ?_⟩
  cases hfetch : fetch s with
  | error p =>
    rw [step_of_fetch_error hinbox hfetch] at h
    injection h with h
    exact .inl (congrArg Except.error h)
  | ok p =>
    obtain ⟨i, t⟩ := p
    rw [step_of_fetch hinbox hfetch] at h
    obtain ⟨-, rest, hdecode, rfl⟩ := fetch_ok hfetch
    exact .inr ⟨i, rest, hdecode, h⟩

/-- The op byte at which the decoder stops is beyond the 3-bit field. -/
theorem op_of_decode_eq_opPadding {bs : List Byte} (h : decode bs = .error .opPadding) :
    ∃ b rest, bs = b :: rest ∧ 8 ≤ b.toNat := by
  rcases decodeStopsOnlyOnIncompleteBytes bs _ h with ⟨hd, -⟩ | ⟨b, rest, hbs, ⟨-, hb⟩ | ⟨hd, -⟩⟩
  · cases hd
  · exact ⟨b, rest, hbs, hb⟩
  · cases hd

/-- The decoder finds no bytes only where there are none. -/
theorem eq_nil_of_decode_eq_noBytes {bs : List Byte} (h : decode bs = .error .noBytes) : bs = [] := by
  rcases decodeStopsOnlyOnIncompleteBytes bs _ h with ⟨-, hbs⟩ | ⟨b, rest, -, ⟨hd, -⟩ | ⟨hd, -⟩⟩
  · exact hbs
  · cases hd
  · cases hd

/-- Settles O8: a refusal is the fetch's or the command's, and each has its cause. -/
theorem stepRefusesOnlyWhereNothingIsDefined : Obligations.StepRefusesOnlyWhereNothingIsDefined := by
  intro s q h
  obtain ⟨hinbox, hfetch | ⟨i, rest, hdecode, hexec⟩⟩ := step_eq_refused h
  · rcases fetch_eq_error hfetch with hoverlap | ⟨hq, hpadding⟩ | ⟨hq, hnone | htruncated⟩
    · exact .inl hoverlap
    · exact .inr (.inl ⟨hq, op_of_decode_eq_opPadding hpadding⟩)
    · exact absurd (eq_nil_of_decode_eq_noBytes hnone) hinbox
    · exact .inr (.inr (.inl ⟨hq, htruncated⟩))
  · refine .inr (.inr (.inr ?_))
    rcases exec_refused hexec with hbeyond | ⟨hq, hillegal⟩
    · cases hbeyond with
      | seedm key hmax => exact .inl ⟨rfl, key, rest, hdecode, hmax⟩
      | load img hmax => exact .inr (.inl ⟨rfl, img, rest, hdecode, hmax⟩)
    · refine .inr (.inr ⟨hq, fun hinv => ?_⟩)
      exact absurd (((cursorLegal_iff s.engine).mpr hinv).symm.trans hillegal) (by decide)

/-- An effect leaves a cursor of at most 312, or the cursor it found, and then it sets no flag that was clear. -/
theorem Effect.idx_le_or_kept {i : Instr} {e e' : Engine} {r : Response} (h : Effect i e e' r) :
    e'.idx.toNat ≤ 312 ∨ (e'.idx = e.idx ∧ (e'.init = true → e.init = true)) := by
  cases h with
  | seed | seedm => exact .inl (Nat.le_refl 312)
  | next64 | next63 =>
    rw [nextEngine_idx_toNat]
    exact .inl (readyEngine_ready e).2
  | load img _ _ hidx =>
    rw [loadedEngine_idx_toNat]
    exact .inl (Nat.le_of_lt hidx)
  | loadEmpty => exact .inr ⟨rfl, fun hinit => by cases hinit⟩
  | emptyKey | saveEmpty | save | loadSize | loadIndex | reserved6 | reserved7 => exact .inr ⟨rfl, id⟩

/-- Settles O3: a step waits or has one of its command's effects, each of which sets a cursor in range or keeps the one it
found. -/
theorem stepKeepsTheCursorInRange : Obligations.StepKeepsTheCursorInRange := by
  intro s t hstep
  refine ⟨fun hinv => ?inv, fun hbound => ?bounded, fun hbound => ?exhausted⟩
  case inv =>
    rcases step_next hstep with ⟨-, rfl⟩ | ⟨i, rest, e, r, -, -, -, heffect, rfl⟩
    · exact hinv
    · intro hinit
      rcases heffect.idx_le_or_kept with hle | ⟨hidx, hkept⟩
      · exact hle
      · rw [State.answered_engine, hidx]
        exact hinv (hkept hinit)
  case bounded =>
    rcases step_next hstep with ⟨-, rfl⟩ | ⟨i, rest, e, r, -, -, -, heffect, rfl⟩
    · exact hbound
    · rcases heffect.idx_le_or_kept with hle | ⟨hidx, -⟩
      · exact hle
      · rw [State.CursorBounded, State.answered_engine, hidx]
        exact hbound
  case exhausted =>
    have hle : s.engine.idx.toNat ≤ 312 := hbound
    rw [exhausted, decide_eq_true_eq, ← BitVec.toNat_inj]
    exact ⟨fun hge => Nat.le_antisymm hle hge, fun heq => Nat.le_of_eq heq.symm⟩

/-- A response that fits a command is in one of rule R83's formats. -/
theorem Response.Fits.legal {i : Instr} {r : Response} (h : r.Fits i) : r.Legal := by
  rcases h with ⟨hok, hpayload⟩ | ⟨-, hnone⟩
  · refine ⟨absurd hok, fun img himg => ?_⟩
    rw [himg] at hpayload
    cases i with
    | save =>
      obtain ⟨img', heq, hlen⟩ := hpayload
      cases heq
      exact hlen
    | seed | seedm | load => cases hpayload
    | next64 =>
      obtain ⟨v, hv⟩ := hpayload
      cases hv
    | next63 =>
      obtain ⟨v, hv, -⟩ := hpayload
      cases hv
    | reserved6 | reserved7 => exact hpayload.elim
  · exact ⟨fun _ => hnone, fun img himg => by rw [hnone] at himg; cases himg⟩

/-- Settles O4: a step adds no response, or one that fits its command. -/
theorem stepKeepsTheResponsesLegal : Obligations.StepKeepsTheResponsesLegal := by
  intro s t hstep hlegal
  rcases step_next hstep with ⟨-, rfl⟩ | ⟨i, rest, e, r, -, -, -, heffect, rfl⟩
  · exact hlegal
  · rw [State.answered_responses, List.forall_mem_cons]
    exact ⟨heffect.fits.legal, hlegal⟩

/-- Settles O2: the flag is clear, the cursor 0 and no response given. -/
theorem resetMeetsTheInvariants : Obligations.ResetMeetsTheInvariants :=
  ⟨State.inv_of_init_false Engine.fresh_init, Nat.zero_le 312, fun _ hr => by cases hr⟩

end Sys2Proof.Machine
end

section
/-! What the old engine does not influence: seeding reads none of it (rules R140, R194), a repeated command finds its own
result (rule R57), and after SEED no two neighbouring words are both zero (rule R249). -/

namespace Sys2Proof.Machine

/-- The fill's recurrence fixes every slot. -/
theorem SeedPrefix.unique {v : Word} {a b : Vector Word 312} (ha : SeedPrefix v 311 a) (hb : SeedPrefix v 311 b) :
    a = b := by
  obtain ⟨hazero, hanext⟩ := ha
  obtain ⟨hbzero, hbnext⟩ := hb
  refine mt_ext fun k hk => ?_
  induction k with
  | zero => rw [hazero, hbzero]
  | succ k ih => rw [hanext k (by omega), hbnext k (by omega), ih (by omega)]

/-- The fill reads no word of the array it is given. -/
theorem seedFill_eq (v : Word) (a b : Vector Word 312) : seedFill v a = seedFill v b :=
  (seedFill_prefix v a).unique (seedFill_prefix v b)

theorem seedBody_eq (v : Word) (e e' : Engine) : seedBody v e = seedBody v e' := by
  rw [seedBody, seedBody, seedFill_eq v e.mt e'.mt]

theorem seedmBody_eq (key : List Word) (e e' : Engine) : seedmBody key e = seedmBody key e' := by
  rw [seedmBody, seedmBody, seedBody_eq bootSeed e e', keyLoop, keyLoop, seedFill_eq bootSeed e.mt e'.mt]

/-- Settles O22: the two seeding bodies read nothing of the engine, and an image brings its own. -/
theorem overwritingCommandsIgnoreTheOldEngine : Obligations.OverwritingCommandsIgnoreTheOldEngine := by
  intro i s u hs hu hi
  simp only [← imageIndex_eq] at hi
  rcases hi with ⟨w, rfl⟩ | ⟨key, rfl, hne, hmax⟩ | ⟨img, rfl, hlen, hidx⟩
  · exact ⟨_, exec_of_inv hs (.seed w _), seedBody_eq w u.engine s.engine ▸ exec_of_inv hu (.seed w _)⟩
  · exact ⟨_, exec_of_inv hs (.seedm key _ hne hmax),
      seedmBody_eq key u.engine s.engine ▸ exec_of_inv hu (.seedm key _ hne hmax)⟩
  · exact ⟨_, exec_of_inv hs (.load img _ hlen hidx), exec_of_inv hu (.load img _ hlen hidx)⟩

/-- A command that requests no value has its effect once: on the engine it left, it leaves that engine and answers alike. -/
theorem Effect.idempotent {i : Instr} {e e' : Engine} {r : Response} (h : Effect i e e' r) (h64 : i ≠ .next64)
    (h63 : i ≠ .next63) : Effect i e' e' r := by
  cases h with
  | seed w =>
    have hagain := Effect.seed w (seedBody w e)
    rwa [seedBody_eq w (seedBody w e) e] at hagain
  | seedm key _ hne hmax =>
    have hagain := Effect.seedm key (seedmBody key e) hne hmax
    rwa [seedmBody_eq key (seedmBody key e) e] at hagain
  | next64 => exact absurd rfl h64
  | next63 => exact absurd rfl h63
  | loadEmpty => exact .loadEmpty { e with init := false }
  | load img _ hlen hidx => exact .load img _ hlen hidx
  | emptyKey => exact .emptyKey e
  | saveEmpty _ hinit => exact .saveEmpty e hinit
  | save _ hinit => exact .save e hinit
  | loadSize img _ hne hmax hlen => exact .loadSize img e hne hmax hlen
  | loadIndex img _ hlen hidx => exact .loadIndex img e hlen hidx
  | reserved6 => exact .reserved6 e
  | reserved7 => exact .reserved7 e

/-- Settles O23: the second effect is the first one's, and a command has one effect. -/
theorem repeatedCommandsAreIdempotent : Obligations.RepeatedCommandsAreIdempotent := by
  intro i s t u h64 h63 hfirst hsecond
  obtain ⟨-, e₁, r₁, heffect₁, rfl⟩ := exec_next hfirst
  obtain ⟨-, e₂, r₂, heffect₂, rfl⟩ := exec_next hsecond
  obtain ⟨rfl, rfl⟩ := heffect₂.unique (heffect₁.idempotent h64 h63)
  exact ⟨rfl, rfl⟩

/-- The word after a zero word is its slot number, which is not 0 modulo 2^64. -/
theorem seedNext_zero_ne_zero {i : Nat} (h : i < 311) : seedNext i 0#64 ≠ 0#64 := by
  have hnext : seedNext i 0#64 = BitVec.ofNat 64 (i + 1) := by simp [seedNext]
  rw [hnext, Ne, ← BitVec.toNat_inj, BitVec.toNat_ofNat, BitVec.toNat_ofNat]
  omega

/-- Settles O27: were both words zero, the second would be computed from the first. -/
theorem seedLeavesNoTwoZeroNeighbours : Obligations.SeedLeavesNoTwoZeroNeighbours := by
  intro v s hinv
  refine ⟨_, exec_of_inv hinv (.seed v s.engine), fun i hi ⟨hzero, hnext⟩ => ?_⟩
  simp only [State.answered_engine, seedBody_mt] at hzero hnext
  rw [seedFill_getElem_succ v s.engine.mt i hi, hzero] at hnext
  exact seedNext_zero_ne_zero hi hnext

end Sys2Proof.Machine
end

section
/-! Runs: their equations, and two runs in lockstep, with which the responses given so far (rule R216) and the contents of an
uninitialised engine (rule R40) are shown to influence nothing. -/

namespace Sys2Proof.Machine

theorem run_succ_of_next {s t : State} (n : Nat) (h : step s = .next t) :
    Host.Core.run Sys2Proof.core (n + 1) s = Host.Core.run Sys2Proof.core n t := by
  have hcore : Sys2Proof.core.step s = .next t := h
  simp only [Host.Core.run, hcore]

theorem run_succ_of_refused {s : State} {q : Refusal} (n : Nat) (h : step s = .refused q) :
    Host.Core.run Sys2Proof.core (n + 1) s = .refused q := by
  have hcore : Sys2Proof.core.step s = .refused q := h
  simp only [Host.Core.run, hcore]

/-- Two outcomes alike: next states related by `R`, or the same reason to stop. -/
inductive SameOutcome (R : State → State → Prop) :
    Host.Outcome State Fault Refusal → Host.Outcome State Fault Refusal → Prop where
  | next {s u : State} (h : R s u) : SameOutcome R (.next s) (.next u)
  | refused (q : Refusal) : SameOutcome R (.refused q) (.refused q)

/-- Related states present the same bytes and overlap, and every command keeps them related or is refused in both. -/
structure Lockstep (R : State → State → Prop) : Prop where
  inbox : ∀ {s u}, R s u → s.inbox = u.inbox
  overlap : ∀ {s u}, R s u → s.overlap = u.overlap
  exec : ∀ {s u} i rest, R s u → SameOutcome R (exec i { s with inbox := rest }) (exec i { u with inbox := rest })

/-- A fetch fails by the inbox and the overlap input alone. -/
theorem fetch_eq_error_congr {s u : State} {q : Refusal} (hinbox : s.inbox = u.inbox) (hoverlap : s.overlap = u.overlap)
    (h : fetch s = .error q) : fetch u = .error q := by
  cases hset : s.overlap with
  | true => simpa [fetch, ← hoverlap, hset] using h
  | false =>
    cases hdecode : decode s.inbox with
    | ok p => rw [fetch_of_decode hset hdecode] at h; cases h
    | error d => cases d <;> simpa [fetch, ← hoverlap, ← hinbox, hset, hdecode] using h

/-- A step in both states waits, is refused by the fetch, or performs the same command. -/
theorem Lockstep.step {R : State → State → Prop} (hR : Lockstep R) {s u : State} (h : R s u) :
    SameOutcome R (step s) (step u) := by
  have hinbox := hR.inbox h
  by_cases hempty : s.inbox = []
  · rw [step_of_inbox_nil hempty, step_of_inbox_nil (hinbox ▸ hempty)]
    exact .next h
  have hempty' : u.inbox ≠ [] := hinbox ▸ hempty
  cases hfetch : fetch s with
  | error q =>
    rw [step_of_fetch_error hempty hfetch,
      step_of_fetch_error hempty' (fetch_eq_error_congr hinbox (hR.overlap h) hfetch)]
    exact .refused q
  | ok p =>
    obtain ⟨i, t⟩ := p
    obtain ⟨hoverlap, rest, hdecode, rfl⟩ := fetch_ok hfetch
    have hfetch' := fetch_of_decode ((hR.overlap h).symm.trans hoverlap) (hinbox ▸ hdecode)
    rw [step_of_fetch hempty hfetch, step_of_fetch hempty' hfetch']
    exact hR.exec i rest h

/-- Runs of any length from related states end alike. -/
theorem Lockstep.run {R : State → State → Prop} (hR : Lockstep R) (n : Nat) {s u : State} (h : R s u) :
    SameOutcome R (Host.Core.run Sys2Proof.core n s) (Host.Core.run Sys2Proof.core n u) := by
  induction n generalizing s u with
  | zero => exact .next h
  | succ n ih =>
    have hstep := hR.step h
    generalize hs : Machine.step s = os at hstep
    generalize hu : Machine.step u = ou at hstep
    cases hstep with
    | next hnext =>
      rw [run_succ_of_next n hs, run_succ_of_next n hu]
      exact ih hnext
    | refused q =>
      rw [run_succ_of_refused n hs, run_succ_of_refused n hu]
      exact .refused q

/-- A command ends alike in two states whose cursors are equally legal, when its effect in the one has a related effect in
the other. -/
theorem sameOutcome_exec {R : State → State → Prop} {i : Instr} {s u : State}
    (hlegal : cursorLegal s.engine = cursorLegal u.engine)
    (heffects : ∀ e r, Effect i s.engine e r → ∃ e', Effect i u.engine e' r ∧ R (s.answered e r) (u.answered e' r)) :
    SameOutcome R (exec i s) (exec i u) := by
  rcases exec_cases i s with ⟨e, r, heffect, hexec⟩ | ⟨q, hbeyond, hexec⟩
  · obtain ⟨e', heffect', hrel⟩ := heffects e r heffect
    rw [hexec, exec_eq_respond heffect', respond, respond, ← hlegal]
    split
    · exact .next hrel
    · exact .refused _
  · rw [hexec, exec_of_beyondBound u hbeyond]
    exact .refused q

/-- The state with responses given before its own. -/
def State.afterResponses (s : State) (old : List Response) : State := { s with responses := s.responses ++ old }

/-- The commands read no response, and answer in front of them. -/
theorem lockstep_afterResponses (old : List Response) : Lockstep fun s u => u = s.afterResponses old where
  inbox h := by rw [h]; rfl
  overlap h := by rw [h]; rfl
  exec i rest h := by
    subst h
    exact sameOutcome_exec rfl fun e r heffect => ⟨e, heffect, rfl⟩

/-- Settles O24: the two runs are in lockstep. -/
theorem responsesAreNeverRead : Obligations.ResponsesAreNeverRead := by
  intro n s old
  have hsame := (lockstep_afterResponses old).run n (s := s) rfl
  change Host.Core.run Sys2Proof.core n (s.afterResponses old) = _
  generalize Host.Core.run Sys2Proof.core n s = os at hsame
  generalize Host.Core.run Sys2Proof.core n (s.afterResponses old) = ou at hsame
  cases hsame with
  | next h => exact congrArg Host.Outcome.next h
  | refused q => rfl

/-- Two engines that no command can tell apart: both uninitialised, or equal (rule R40). -/
def Engine.Alike (e e' : Engine) : Prop := e.init = e'.init ∧ (e.init = true → e = e')

theorem Engine.Alike.of_eq {e e' : Engine} (h : e = e') : e.Alike e' := ⟨congrArg Engine.init h, fun _ => h⟩

theorem Engine.Alike.cursorLegal_eq {e e' : Engine} (h : e.Alike e') : cursorLegal e = cursorLegal e' := by
  obtain ⟨hinit, heq⟩ := h
  cases hi : e.init with
  | true => rw [heq hi]
  | false => rw [cursorLegal, cursorLegal, ← hinit, hi, Bool.not_false, Bool.true_or, Bool.true_or]

/-- A value request seeds an uninitialised engine, so that nothing of it is left. -/
theorem readyEngine_eq_of_init_false {e e' : Engine} (h : e.init = false) (h' : e'.init = false) :
    readyEngine e = readyEngine e' := by
  rw [readyEngine_of_init_false h, readyEngine_of_init_false h', seedBody_eq _ e e']

/-- An effect on one of two engines alike is an effect on the other, with the same response, and leaves them alike. -/
theorem Effect.alike {i : Instr} {e e' e₁ : Engine} {r : Response} (h : Effect i e e₁ r) (halike : e.Alike e') :
    ∃ e₂, Effect i e' e₂ r ∧ e₁.Alike e₂ := by
  cases hinit : e.init with
  | true =>
    obtain rfl := halike.2 hinit
    exact ⟨e₁, h, .of_eq rfl⟩
  | false =>
    have hinit' : e'.init = false := halike.1.symm.trans hinit
    have hready := readyEngine_eq_of_init_false hinit hinit'
    have hengine : nextEngine e = nextEngine e' := by rw [nextEngine, nextEngine, hready]
    have hvalue : nextValue e = nextValue e' := by rw [nextValue, nextValue, hready]
    cases h with
    | seed w => exact ⟨_, .seed w e', .of_eq (seedBody_eq w e e')⟩
    | seedm key _ hne hmax => exact ⟨_, .seedm key e' hne hmax, .of_eq (seedmBody_eq key e e')⟩
    | next64 => exact ⟨nextEngine e', by rw [hvalue]; exact .next64 e', .of_eq hengine⟩
    | next63 => exact ⟨nextEngine e', by rw [hvalue]; exact .next63 e', .of_eq hengine⟩
    | loadEmpty => exact ⟨_, .loadEmpty e', rfl, fun hset => by cases hset⟩
    | load img _ hlen hidx => exact ⟨_, .load img e' hlen hidx, .of_eq rfl⟩
    | save _ hset => exact absurd (hset.symm.trans hinit) (by decide)
    | emptyKey => exact ⟨e', .emptyKey e', halike⟩
    | saveEmpty => exact ⟨e', .saveEmpty e' hinit', halike⟩
    | loadSize img _ hne hmax hlen => exact ⟨e', .loadSize img e' hne hmax hlen, halike⟩
    | loadIndex img _ hlen hidx => exact ⟨e', .loadIndex img e' hlen hidx, halike⟩
    | reserved6 => exact ⟨e', .reserved6 e', halike⟩
    | reserved7 => exact ⟨e', .reserved7 e', halike⟩

/-- Two states that agree on the host's side and whose engines no command can tell apart. -/
structure State.Alike (s u : State) : Prop where
  inbox : s.inbox = u.inbox
  overlap : s.overlap = u.overlap
  responses : s.responses = u.responses
  engine : s.engine.Alike u.engine

theorem lockstep_alike : Lockstep State.Alike where
  inbox h := h.inbox
  overlap h := h.overlap
  exec i rest h := sameOutcome_exec h.engine.cursorLegal_eq fun e r heffect => by
    obtain ⟨e', heffect', halike⟩ := heffect.alike h.engine
    exact ⟨e', heffect', rfl, h.overlap, congrArg (r :: ·) h.responses, halike⟩

/-- Settles O25: the two runs are in lockstep. -/
theorem uninitialisedContentsAreUnobservable : Obligations.UninitialisedContentsAreUnobservable := by
  intro n s u hs hu hinbox hoverlap hresponses
  have halike : s.engine.Alike u.engine := ⟨hs.trans hu.symm, fun hinit => absurd (hinit.symm.trans hs) (by decide)⟩
  have hsame := lockstep_alike.run n (State.Alike.mk hinbox hoverlap hresponses halike)
  generalize Host.Core.run Sys2Proof.core n s = os at hsame ⊢
  generalize Host.Core.run Sys2Proof.core n u = ou at hsame ⊢
  cases hsame with
  | next h => exact ⟨h.responses, h.inbox, h.engine⟩
  | refused q => rfl

end Sys2Proof.Machine
end

section
/-! SEEDM, iteration by iteration: its two counters in closed form (rule R137), and the words it writes as one stream, of which
each is computed from the word written just before and from the one written 311 iterations earlier (rule R135). -/

namespace Sys2Proof.Machine

/-- `MT[i - 1]`: the word written just before, since slot 0 is given slot 311's word when the slot counter starts again. -/
def SeedmLocals.previous (l : SeedmLocals) : Word := mtRead l.mt (l.i - 1)

/-- `MT[i] <- w`, and the slot counter goes on (rule R135, steps 3 and 4). -/
def SeedmLocals.writeNext (l : SeedmLocals) (w : Word) : SeedmLocals := advanceSlot { l with mt := mtWrite l.mt l.i w }

/-- The word that an iteration of step 3 writes, with the spec's numerals. -/
def keyWritten (key : List Word) (l : SeedmLocals) : Word :=
  ((mtRead l.mt l.i ^^^ ((l.previous ^^^ (l.previous >>> 62)) * 3935559000370003845#64)) + key.getD l.j 0#64) +
    BitVec.ofNat 64 l.j

/-- The word that an iteration of step 4 writes, with the spec's numerals. -/
def mixWritten (l : SeedmLocals) : Word :=
  (mtRead l.mt l.i ^^^ ((l.previous ^^^ (l.previous >>> 62)) * 2862933555777941757#64)) - BitVec.ofNat 64 l.i

theorem keyStep_eq (key : List Word) (l : SeedmLocals) :
    keyStep key l = advanceKey key.length (l.writeNext (keyWritten key l)) := rfl

theorem mixStep_eq (l : SeedmLocals) : mixStep l = l.writeNext (mixWritten l) := rfl

@[simp] theorem advanceSlot_i (l : SeedmLocals) : (advanceSlot l).i = if 312 ≤ l.i + 1 then 1 else l.i + 1 := by
  unfold advanceSlot
  split <;> rfl

@[simp] theorem advanceSlot_j (l : SeedmLocals) : (advanceSlot l).j = l.j := by
  unfold advanceSlot
  split <;> rfl

/-- The slot counter's restart writes slot 0 alone. -/
theorem mtRead_advanceSlot (l : SeedmLocals) {k : Nat} (hk : k ≠ 0) : mtRead (advanceSlot l).mt k = mtRead l.mt k := by
  unfold advanceSlot
  split
  · exact mtRead_mtWrite_other _ _ _ _ hk.symm
  · rfl

@[simp] theorem advanceKey_mt (len : Nat) (l : SeedmLocals) : (advanceKey len l).mt = l.mt := by
  unfold advanceKey
  split <;> rfl

@[simp] theorem advanceKey_i (len : Nat) (l : SeedmLocals) : (advanceKey len l).i = l.i := by
  unfold advanceKey
  split <;> rfl

@[simp] theorem advanceKey_j (len : Nat) (l : SeedmLocals) :
    (advanceKey len l).j = if len ≤ l.j + 1 then 0 else l.j + 1 := by
  unfold advanceKey
  split <;> rfl

@[simp] theorem advanceKey_previous (len : Nat) (l : SeedmLocals) : (advanceKey len l).previous = l.previous := by
  rw [SeedmLocals.previous, advanceKey_mt, advanceKey_i, SeedmLocals.previous]

theorem writeNext_i (l : SeedmLocals) (w : Word) : (l.writeNext w).i = if 312 ≤ l.i + 1 then 1 else l.i + 1 :=
  advanceSlot_i _

/-- The word written is the next iteration's `MT[i - 1]`. -/
theorem writeNext_previous {l : SeedmLocals} (w : Word) (hlow : 1 ≤ l.i) (hhigh : l.i ≤ 311) :
    (l.writeNext w).previous = w := by
  unfold SeedmLocals.writeNext advanceSlot
  split
  case isTrue hlast =>
    have hi : l.i = 311 := by simp only at hlast; omega
    simp only [SeedmLocals.previous, hi, Nat.sub_self]
    rw [mtRead_mtWrite_same _ _ _ (by omega), mtRead_mtWrite_same _ _ _ (by omega)]
  case isFalse =>
    simp only [SeedmLocals.previous, Nat.add_sub_cancel]
    exact mtRead_mtWrite_same _ _ _ (by omega)

/-- The write leaves every slot but its own and slot 0 alone. -/
theorem mtRead_writeNext (l : SeedmLocals) (w : Word) {k : Nat} (hk : k ≠ 0) (hslot : k < 312) :
    mtRead (l.writeNext w).mt k = if l.i = k then w else mtRead l.mt k := by
  rw [SeedmLocals.writeNext, mtRead_advanceSlot _ hk, mtRead_mtWrite _ _ _ _ hslot]

/-- The slot counter's next value is the closed form's (rule R137). -/
theorem slot_succ (n : Nat) : (if 312 ≤ n % 311 + 1 + 1 then 1 else n % 311 + 1 + 1) = (n + 1) % 311 + 1 := by
  split <;> omega

/-- The key counter's next value is the closed form's (rule R137). -/
theorem keyIndex_succ (n : Nat) {len : Nat} (hlen : 0 < len) :
    (if len ≤ n % len + 1 then 0 else n % len + 1) = (n + 1) % len := by
  have hlt := Nat.mod_lt n hlen
  rw [← Nat.mod_add_mod n len 1]
  split
  case isTrue hwrap =>
    have hlast : n % len + 1 = len := Nat.le_antisymm hlt hwrap
    rw [hlast, Nat.mod_self]
  case isFalse hstay => rw [Nat.mod_eq_of_lt (Nat.lt_of_not_le hstay)]

theorem keyStep_i {key : List Word} {l : SeedmLocals} {n : Nat} (h : l.i = n % 311 + 1) :
    (keyStep key l).i = (n + 1) % 311 + 1 := by
  rw [keyStep_eq, advanceKey_i, writeNext_i, h, slot_succ]

theorem keyStep_j {key : List Word} {l : SeedmLocals} {n : Nat} (hkey : key ≠ []) (h : l.j = n % key.length) :
    (keyStep key l).j = (n + 1) % key.length := by
  rw [keyStep_eq, advanceKey_j, SeedmLocals.writeNext, advanceSlot_j, h]
  exact keyIndex_succ n (List.length_pos_of_ne_nil hkey)

theorem mixStep_i {l : SeedmLocals} {n : Nat} (h : l.i = n % 311 + 1) : (mixStep l).i = (n + 1) % 311 + 1 := by
  rw [mixStep_eq, writeNext_i, h, slot_succ]

theorem mixStep_j (l : SeedmLocals) : (mixStep l).j = l.j := advanceSlot_j _

/-- The locals with which step 3 starts (rule R135, step 2). -/
def seedmStart (mt : Vector Word 312) : SeedmLocals := { mt := mt, i := 1, j := 0 }

/-- The counters after `n` iterations of step 3. -/
theorem repeat_keyStep_counters {key : List Word} (hkey : key ≠ []) (mt : Vector Word 312) (n : Nat) :
    (repeatTimes (keyStep key) n (seedmStart mt)).i = n % 311 + 1 ∧
      (repeatTimes (keyStep key) n (seedmStart mt)).j = n % key.length := by
  induction n with
  | zero =>
    rw [repeatTimes_zero, Nat.zero_mod, Nat.zero_mod]
    exact ⟨rfl, rfl⟩
  | succ n ih =>
    rw [repeatTimes_succ_last]
    exact ⟨keyStep_i ih.1, keyStep_j hkey ih.2⟩

/-- The counters after `m` iterations of step 4 that started from slot counter `n mod 311 + 1`. -/
theorem repeat_mixStep_counters {l : SeedmLocals} {n : Nat} (h : l.i = n % 311 + 1) (m : Nat) :
    (repeatTimes mixStep m l).i = (n + m) % 311 + 1 ∧ (repeatTimes mixStep m l).j = l.j := by
  induction m with
  | zero => exact ⟨by rw [repeatTimes_zero]; exact h, by rw [repeatTimes_zero]⟩
  | succ m ih =>
    rw [repeatTimes_succ_last]
    exact ⟨mixStep_i ih.1, (mixStep_j _).trans ih.2⟩

/-- Settles O31: both counters follow their closed forms, one iteration at a time. -/
theorem seedmCountersFollowTheirTrace : Obligations.SeedmCountersFollowTheirTrace := by
  intro key mt n m hkey
  obtain ⟨hslot, hindex⟩ := repeat_keyStep_counters hkey mt n
  obtain ⟨hslot', hindex'⟩ := repeat_mixStep_counters hslot m
  exact ⟨hslot, hindex, hslot', hindex'.trans hindex⟩

/-- What the slot of iteration `n` holds before it is written: the word written 311 iterations earlier, or the bootstrap's. -/
def heldWord (boot : Vector Word 312) (c : Nat → Word) (n : Nat) : Word :=
  if n < 311 then mtRead boot (n + 1) else c (n + 1 - 311)

theorem heldWord_eq_dite (boot : Vector Word 312) (c : Nat → Word) (n : Nat) :
    heldWord boot c n = if h : n < 311 then boot[n + 1] else c (n + 1 - 311) := by
  unfold heldWord
  split
  · exact mtRead_eq_getElem boot (n + 1) (by omega)
  · rfl

/-- The locals before iteration `n` of a run over the slots 1 to 311 in which iteration `k` writes `c (k + 1)`: the counter,
the word written last, and what the slots of the next 311 iterations hold. -/
structure SlotTrace (boot : Vector Word 312) (c : Nat → Word) (n : Nat) (l : SeedmLocals) : Prop where
  slot : l.i = n % 311 + 1
  previous : l.previous = c n
  held : ∀ d < 311, mtRead l.mt ((n + d) % 311 + 1) = heldWord boot c (n + d)

/-- Before the first iteration every slot holds the bootstrap's word. -/
theorem slotTrace_start (boot : Vector Word 312) {c : Nat → Word} (hc : c 0 = mtRead boot 0) :
    SlotTrace boot c 0 (seedmStart boot) where
  slot := rfl
  previous := hc.symm
  held d hd := by
    rw [Nat.zero_add, Nat.mod_eq_of_lt hd, heldWord, if_pos hd]
    rfl

/-- The next write puts the stream's next word into the slot whose turn comes again 311 iterations later. -/
theorem SlotTrace.writeNext {boot : Vector Word 312} {c : Nat → Word} {n : Nat} {l : SeedmLocals} {w : Word}
    (h : SlotTrace boot c n l) (hc : c (n + 1) = w) : SlotTrace boot c (n + 1) (l.writeNext w) where
  slot := by rw [writeNext_i, h.slot, slot_succ]
  previous := by
    have hslot := h.slot
    rw [writeNext_previous w (by omega) (by omega), hc]
  held d hd := by
    rw [mtRead_writeNext l w (by omega) (by omega), h.slot]
    split
    case isTrue hwritten =>
      have hearlier : n + 1 + d + 1 - 311 = n + 1 := by omega
      rw [heldWord, if_neg (by omega), hearlier, hc]
    case isFalse hother =>
      have hrest := h.held (d + 1) (by omega)
      rwa [← Nat.add_assoc, Nat.add_right_comm] at hrest

theorem SlotTrace.advanceKey {boot : Vector Word 312} {c : Nat → Word} {n : Nat} {l : SeedmLocals}
    (h : SlotTrace boot c n l) (len : Nat) : SlotTrace boot c n (advanceKey len l) where
  slot := by rw [advanceKey_i, h.slot]
  previous := by rw [advanceKey_previous, h.previous]
  held := by rw [advanceKey_mt]; exact h.held

/-- The slot that an iteration reads and writes holds what it was given 311 iterations earlier. -/
theorem SlotTrace.read {boot : Vector Word 312} {c : Nat → Word} {n : Nat} {l : SeedmLocals} (h : SlotTrace boot c n l) :
    mtRead l.mt l.i = heldWord boot c n := by
  rw [h.slot]
  exact h.held 0 (by omega)

/-- The number of iterations of step 3. -/
def keyCount (key : List Word) : Nat := max 312 key.length

theorem keyCount_ge (key : List Word) : 312 ≤ keyCount key := Nat.le_max_left _ _

/-- The locals before iteration `n` of steps 3 and 4, counted through. -/
def seedmLocals (key : List Word) (boot : Vector Word 312) (n : Nat) : SeedmLocals :=
  repeatTimes mixStep (n - keyCount key) (repeatTimes (keyStep key) (min n (keyCount key)) (seedmStart boot))

section

variable {key : List Word} {boot : Vector Word 312}

theorem seedmLocals_of_le {n : Nat} (h : n ≤ keyCount key) :
    seedmLocals key boot n = repeatTimes (keyStep key) n (seedmStart boot) := by
  rw [seedmLocals, Nat.sub_eq_zero_of_le h, Nat.min_eq_left h, repeatTimes_zero]

theorem seedmLocals_succ_of_lt {n : Nat} (h : n < keyCount key) :
    seedmLocals key boot (n + 1) = keyStep key (seedmLocals key boot n) := by
  rw [seedmLocals_of_le h, seedmLocals_of_le (Nat.le_of_lt h), repeatTimes_succ_last]

theorem seedmLocals_succ_of_ge {n : Nat} (h : keyCount key ≤ n) :
    seedmLocals key boot (n + 1) = mixStep (seedmLocals key boot n) := by
  rw [seedmLocals, seedmLocals, Nat.sub_add_comm h, repeatTimes_succ_last, Nat.min_eq_right h,
    Nat.min_eq_right (Nat.le_succ_of_le h)]

end

/-- SEEDM's array is the last locals' with the top bit put into slot 0. -/
theorem seedmBody_mt (key : List Word) (e : Engine) :
    (seedmBody key e).mt =
      mtWrite (seedmLocals key (seedFill bootSeed e.mt) (keyCount key + 311)).mt 0 topBit := by
  rw [seedmLocals, Nat.add_sub_cancel_left, Nat.min_eq_right (Nat.le_add_right _ _)]
  rfl

/-- The stream of written words: the word in `MT[i - 1]` before iteration `n`. -/
def seedmStream (key : List Word) (boot : Vector Word 312) (n : Nat) : Word := (seedmLocals key boot n).previous

/-- SEEDM's locals follow its stream. -/
theorem slotTrace_seedmLocals (key : List Word) (boot : Vector Word 312) (n : Nat) :
    SlotTrace boot (seedmStream key boot) n (seedmLocals key boot n) := by
  induction n with
  | zero =>
    have hstart : seedmLocals key boot 0 = seedmStart boot := by
      rw [seedmLocals_of_le (Nat.zero_le _), repeatTimes_zero]
    rw [hstart]
    exact slotTrace_start boot (by rw [seedmStream, hstart]; rfl)
  | succ n ih =>
    have hslot := ih.slot
    rcases Nat.lt_or_ge n (keyCount key) with hkey | hmix
    · rw [seedmLocals_succ_of_lt hkey, keyStep_eq]
      refine (ih.writeNext ?_).advanceKey key.length
      rw [seedmStream, seedmLocals_succ_of_lt hkey, keyStep_eq, advanceKey_previous,
        writeNext_previous _ (by omega) (by omega)]
    · rw [seedmLocals_succ_of_ge hmix, mixStep_eq]
      refine ih.writeNext ?_
      rw [seedmStream, seedmLocals_succ_of_ge hmix, mixStep_eq, writeNext_previous _ (by omega) (by omega)]

section

variable {key : List Word} {boot : Vector Word 312}

/-- The word that iteration `n` of step 3 writes. -/
theorem seedmStream_succ_of_lt (hkey : key ≠ []) {n : Nat} (h : n < keyCount key) :
    seedmStream key boot (n + 1) =
      ((heldWord boot (seedmStream key boot) n ^^^
          ((seedmStream key boot n ^^^ (seedmStream key boot n >>> 62)) * 3935559000370003845#64)) +
        key.getD (n % key.length) 0#64) + BitVec.ofNat 64 (n % key.length) := by
  have htrace := slotTrace_seedmLocals key boot n
  have hslot := htrace.slot
  have hindex : (seedmLocals key boot n).j = n % key.length := by
    rw [seedmLocals_of_le (Nat.le_of_lt h)]
    exact (repeat_keyStep_counters hkey boot n).2
  rw [seedmStream, seedmLocals_succ_of_lt h, keyStep_eq, advanceKey_previous,
    writeNext_previous _ (by omega) (by omega), keyWritten, htrace.read, htrace.previous, hindex]

/-- The word that an iteration of step 4 writes. -/
theorem seedmStream_succ_of_ge {n : Nat} (h : keyCount key ≤ n) :
    seedmStream key boot (n + 1) =
      (heldWord boot (seedmStream key boot) n ^^^
          ((seedmStream key boot n ^^^ (seedmStream key boot n >>> 62)) * 2862933555777941757#64)) -
        BitVec.ofNat 64 (n % 311 + 1) := by
  have htrace := slotTrace_seedmLocals key boot n
  have hslot := htrace.slot
  rw [seedmStream, seedmLocals_succ_of_ge h, mixStep_eq, writeNext_previous _ (by omega) (by omega), mixWritten,
    htrace.read, htrace.previous, hslot]

end

/-- In the end slots 1 to 311 hold the words of step 4. -/
theorem seedmBody_getElem (key : List Word) (e : Engine) {m : Nat} (hm : m < 311) :
    (seedmBody key e).mt[(keyCount key + m) % 311 + 1] =
      seedmStream key (seedFill bootSeed e.mt) (keyCount key + (m + 1)) := by
  have htrace := slotTrace_seedmLocals key (seedFill bootSeed e.mt) (keyCount key + 311)
  have hslot : (keyCount key + 311 + m) % 311 + 1 = (keyCount key + m) % 311 + 1 := by omega
  have hearlier : keyCount key + 311 + m + 1 - 311 = keyCount key + (m + 1) := by omega
  rw [← mtRead_eq_getElem _ _ (by omega), seedmBody_mt, mtRead_mtWrite_other _ _ _ _ (by omega), ← hslot,
    htrace.held m hm, heldWord, if_neg (by omega), hearlier]

/-- Settles O30: both streams are the one stream of written words, cut where step 4 begins. -/
theorem seedmWritesItsTwoStreams : Obligations.SeedmWritesItsTwoStreams := by
  intro key s hne hmax hinv
  have hcount := keyCount_ge key
  refine ⟨seedFill bootSeed s.engine.mt, (seedmBody key s.engine).mt,
    seedmStream key (seedFill bootSeed s.engine.mt),
    fun m => seedmStream key (seedFill bootSeed s.engine.mt) (keyCount key + m),
    seedFill_getElem_zero _ _, seedFill_getElem_succ _ _, ?first, fun n hn => ?keyWord, rfl, fun m hm => ?mixWord,
    exec_of_inv hinv (.seedm key s.engine hne hmax), ?topBit, fun m hm => seedmBody_getElem key s.engine hm⟩
  case first =>
    rw [← (slotTrace_seedmLocals key _ 0).previous, seedmLocals_of_le (Nat.zero_le _), repeatTimes_zero]
    exact (seedFill_prefix bootSeed s.engine.mt).1
  case keyWord => rw [seedmStream_succ_of_lt hne hn, heldWord_eq_dite]
  case mixWord =>
    have hearlier : max 312 key.length + m - 310 = keyCount key + m + 1 - 311 := by
      rw [← keyCount]
      omega
    rw [hearlier]
    simp only [← Nat.add_assoc]
    rw [seedmStream_succ_of_ge (Nat.le_add_right _ m), heldWord, if_neg (by omega)]
    rfl
  case topBit =>
    rw [← mtRead_eq_getElem _ 0 (by omega), seedmBody_mt, mtRead_mtWrite_same _ _ _ (by omega), topBit]

end Sys2Proof.Machine
end

section
/-! TWIST's pass over the array: what each slot's new word is computed from (rule R151), the three-range form (rule R152),
linearity and the bits of slot 0 that play no part (rule R155). -/

namespace Sys2Proof.Machine

/-- Iterations leave every slot alone that they do not visit. -/
theorem mtRead_forUp_twistStep (first count : Nat) (mt : Vector Word 312) {j : Nat} (h : j < first ∨ first + count ≤ j) :
    mtRead (forUp twistStep first count mt) j = mtRead mt j := by
  induction count with
  | zero => rw [forUp_zero]
  | succ count ih => rw [forUp_succ_last, twistStep, mtRead_mtWrite_other _ _ _ _ (by omega), ih (by omega)]

/-- The pass, cut before iteration `k`. -/
theorem twistPass_eq_forUp (mt : Vector Word 312) {k : Nat} (hk : k ≤ 312) :
    twistPass mt = forUp twistStep k (312 - k) (forUp twistStep 0 k mt) := by
  have hcut := forUp_add twistStep 0 k (312 - k) mt
  rwa [Nat.add_sub_cancel' hk, Nat.zero_add] at hcut

/-- What iteration `k` reads: slots below `k` hold their new words already, the others still hold the old ones. -/
theorem mtRead_twist_prefix (mt : Vector Word 312) {j k : Nat} (hk : k ≤ 312) :
    mtRead (forUp twistStep 0 k mt) j = if j < k then mtRead (twistPass mt) j else mtRead mt j := by
  split
  case isTrue hvisited => rw [twistPass_eq_forUp mt hk, mtRead_forUp_twistStep k _ _ (.inl hvisited)]
  case isFalse hwaiting => exact mtRead_forUp_twistStep 0 k mt (.inr (by omega))

/-- The new word of each slot (rule R151's table): slot 311 reads the new slot 0, and from slot 156 on the partner has been
rewritten. -/
theorem mtRead_twistPass (mt : Vector Word 312) {j : Nat} (hj : j < 312) :
    mtRead (twistPass mt) j =
      twistSlot (mtRead mt j) (if j = 311 then mtRead (twistPass mt) 0 else mtRead mt (j + 1))
        (if j < 156 then mtRead mt (j + 156) else mtRead (twistPass mt) (j - 156)) := by
  have hwritten : mtRead (twistPass mt) j = mtRead (twistStep j (forUp twistStep 0 j mt)) j := by
    rw [twistPass_eq_forUp mt (Nat.succ_le_of_lt hj), mtRead_forUp_twistStep _ _ _ (.inl j.lt_succ_self),
      forUp_succ_last, Nat.zero_add]
  have hnext : mtRead (forUp twistStep 0 j mt) ((j + 1) % 312) =
      if j = 311 then mtRead (twistPass mt) 0 else mtRead mt (j + 1) := by
    rw [mtRead_twist_prefix mt hj.le]
    by_cases hlast : j = 311
    · rw [hlast, if_pos (by decide), if_pos rfl]
    · rw [Nat.mod_eq_of_lt (by omega), if_neg (by omega), if_neg hlast]
  have hpartner : mtRead (forUp twistStep 0 j mt) ((j + 156) % 312) =
      if j < 156 then mtRead mt (j + 156) else mtRead (twistPass mt) (j - 156) := by
    rw [mtRead_twist_prefix mt hj.le]
    by_cases hlow : j < 156
    · rw [Nat.mod_eq_of_lt (by omega), if_neg (by omega), if_pos hlow]
    · have hwrap : (j + 156) % 312 = j - 156 := by omega
      rw [hwrap, if_pos (by omega), if_neg hlow]
  rw [hwritten, twistStep, mtRead_mtWrite_same _ _ _ hj, hnext, hpartner, mtRead_twist_prefix mt hj.le,
    if_neg (Nat.lt_irrefl j)]

/-- A slot's new word with the spec's numerals (rule R150). -/
theorem twistSlot_eq (cur nxt par : Word) :
    twistSlot cur nxt par =
      let x := (cur &&& 0xFFFFFFFF80000000#64) ||| (nxt &&& 0x7FFFFFFF#64)
      par ^^^ (x >>> 1) ^^^ (if x.getLsbD 0 then 0xB5026F5AA96619E9#64 else 0#64) := by
  rw [twistSlot, mag_eq_ite_getLsbD]
  rfl

/-- A request on an exhausted engine answers from the twisted array's slot 0. -/
theorem exec_next64_of_exhausted {s : State} (hinit : s.engine.init = true) (hidx : s.engine.idx = 312#16) :
    exec .next64 s =
      .next (s.answered { mt := twistPass s.engine.mt, idx := 1#16, init := true }
        { status := .ok, payload := .word (temper (twistPass s.engine.mt)[0]) }) := by
  have hlegal : s.engine.idx.toNat = 312 := congrArg BitVec.toNat hidx
  have hready : readyEngine s.engine = twistBody s.engine := readyEngine_of_exhausted hinit hlegal.ge
  have hengine : nextEngine s.engine = { mt := twistPass s.engine.mt, idx := 1#16, init := true } := by
    rw [nextEngine, hready, ← hinit]
    rfl
  have hvalue : nextValue s.engine = temper (twistPass s.engine.mt)[0] := by
    rw [nextValue, hready, twistBody_mt, twistBody_idx, BitVec.toNat_ofNat, Nat.zero_mod, mtRead_eq_getElem]
  rw [exec_next64_of_inv (fun _ => hlegal.le), hengine, hvalue]

/-- Settles O32: the request twists first, and the three kinds of slot are the cases of `mtRead_twistPass`. -/
theorem exhaustedRequestTwistsInPlace : Obligations.ExhaustedRequestTwistsInPlace := by
  intro s hinit hidx
  refine ⟨twistPass s.engine.mt, exec_next64_of_exhausted hinit hidx, fun i hi => ?low, fun i hi => ?high, ?last⟩
  case low =>
    simp only [← mtRead_eq_getElem]
    rw [mtRead_twistPass _ (by omega), if_neg (by omega), if_pos hi, twistSlot_eq]
  case high =>
    simp only [← mtRead_eq_getElem]
    rw [mtRead_twistPass _ (by omega), if_neg (by omega), if_neg (by omega), Nat.add_sub_cancel, twistSlot_eq]
  case last =>
    simp only [← mtRead_eq_getElem]
    rw [mtRead_twistPass _ (by omega), if_pos rfl, if_neg (by omega), twistSlot_eq]

/-- A loop does not see what its body does outside its range. -/
theorem forUp_congr {α : Type} {f g : Nat → α → α} {first count : Nat} (a : α)
    (h : ∀ k b, first ≤ k → k < first + count → f k b = g k b) : forUp f first count a = forUp g first count a := by
  induction count with
  | zero => rw [forUp_zero, forUp_zero]
  | succ count ih =>
    rw [forUp_succ_last, forUp_succ_last, ih fun k b hlow hhigh => h k b hlow (by omega), h _ _ (by omega) (by omega)]

/-- Settles O34: the pass is cut at slots 156 and 311, and on each range the two slot numbers taken modulo 312 are those of
the form without `mod`. -/
theorem twistEqualsItsThreeRangeForm : Obligations.TwistEqualsItsThreeRangeForm := by
  intro mt
  have hcut : twistPass mt = twistStep 311 (forUp twistStep 156 155 (forUp twistStep 0 156 mt)) := by
    rw [twistPass, forUp_succ_last, forUp_add twistStep 0 156 155]
  rw [hcut, twistThreeRanges]
  have hlow : forUp twistStep 0 156 mt =
      forUp (fun i m => mtWrite m i (twistSlot (mtRead m i) (mtRead m (i + 1)) (mtRead m (i + 156)))) 0 156 mt := by
    refine forUp_congr mt fun k m _ hk => ?_
    rw [twistStep, Nat.mod_eq_of_lt (by omega), Nat.mod_eq_of_lt (by omega)]
  have hhigh (m : Vector Word 312) : forUp twistStep 156 155 m =
      forUp (fun i m => mtWrite m i (twistSlot (mtRead m i) (mtRead m (i + 1)) (mtRead m (i - 156)))) 156 155 m := by
    refine forUp_congr m fun k m hk hk' => ?_
    have hpartner : (k + 156) % 312 = k - 156 := by omega
    rw [twistStep, Nat.mod_eq_of_lt (by omega), hpartner]
  rw [hlow, hhigh]
  rfl

/-! ### Linearity -/

theorem twistWord_xor (c c' n n' : Word) : twistWord (c ^^^ c') (n ^^^ n') = twistWord c n ^^^ twistWord c' n' := by
  apply BitVec.eq_of_getLsbD_eq
  intro k hk
  rw [BitVec.getLsbD_xor, twistWord_getLsbD _ _ hk, twistWord_getLsbD _ _ hk, twistWord_getLsbD _ _ hk]
  split
  · exact BitVec.getLsbD_xor
  · exact BitVec.getLsbD_xor

theorem mag_xor (x x' : Word) : mag (x ^^^ x') = mag x ^^^ mag x' := by
  simp only [mag_eq_ite_getLsbD, BitVec.getLsbD_xor]
  cases x.getLsbD 0 <;> cases x'.getLsbD 0 <;> simp

theorem twistSlot_xor (c c' n n' p p' : Word) :
    twistSlot (c ^^^ c') (n ^^^ n') (p ^^^ p') = twistSlot c n p ^^^ twistSlot c' n' p' := by
  rw [twistSlot, twistWord_xor, mag_xor, BitVec.ushiftRight_xor_distrib, twistSlot, twistSlot]
  ac_rfl

theorem mtRead_xorMt (a b : Vector Word 312) {k : Nat} (hk : k < 312) :
    mtRead (xorMt a b) k = mtRead a k ^^^ mtRead b k := by
  simp only [mtRead_eq_getElem _ k hk, xorMt, Vector.getElem_zipWith]

theorem mtWrite_xorMt (a b : Vector Word 312) (n : Nat) (v w : Word) :
    mtWrite (xorMt a b) n (v ^^^ w) = xorMt (mtWrite a n v) (mtWrite b n w) := by
  refine mt_ext fun k hk => ?_
  rw [mtRead_xorMt _ _ hk, mtRead_mtWrite _ _ _ _ hk, mtRead_mtWrite _ _ _ _ hk, mtRead_mtWrite _ _ _ _ hk]
  split
  · rfl
  · exact mtRead_xorMt a b hk

theorem twistStep_xorMt (a b : Vector Word 312) {i : Nat} (hi : i < 312) :
    twistStep i (xorMt a b) = xorMt (twistStep i a) (twistStep i b) := by
  simp only [twistStep, mtRead_xorMt a b hi, mtRead_xorMt a b (Nat.mod_lt _ (by decide)), twistSlot_xor, mtWrite_xorMt]

/-- Settles O35: every iteration is linear, and so is the loop. -/
theorem twistIsLinear : Obligations.TwistIsLinear := by
  intro a b
  refine forUp_induct (P := fun k m => m = xorMt (forUp twistStep 0 k a) (forUp twistStep 0 k b)) twistStep 0 312
    (xorMt a b) ?_ fun k m hk hm => ?_
  · rw [forUp_zero, forUp_zero]
  · rw [hm, Nat.zero_add, twistStep_xorMt _ _ hk, forUp_succ_last, forUp_succ_last, Nat.zero_add]

/-! ### The low bits of slot 0 -/

/-- A slot's new word reads bits 63:31 alone of the slot's own word (rule R153). -/
theorem twistSlot_congr_high {c c' : Word} (nxt par : Word) (h : ∀ n, 31 ≤ n → c.getLsbD n = c'.getLsbD n) :
    twistSlot c nxt par = twistSlot c' nxt par := by
  have hword : twistWord c nxt = twistWord c' nxt := by
    apply BitVec.eq_of_getLsbD_eq
    intro k hk
    rw [twistWord_getLsbD _ _ hk, twistWord_getLsbD _ _ hk]
    split
    case isTrue hhigh => exact h k hhigh
    case isFalse => rfl
  rw [twistSlot, twistSlot, hword]

/-- Settles O36: slot 0's old word is read once, as its own slot's; every other word read is the same in both passes, an old
one by hypothesis or a new one by induction. -/
theorem twistIgnoresTheLowBitsOfSlotZero : Obligations.TwistIgnoresTheLowBitsOfSlotZero := by
  intro a b hsame hhigh
  have hold : ∀ k, k ≠ 0 → k < 312 → mtRead a k = mtRead b k := fun k hk hlt => by
    obtain ⟨i, rfl⟩ := Nat.exists_eq_succ_of_ne_zero hk
    rw [mtRead_eq_getElem a _ hlt, mtRead_eq_getElem b _ hlt]
    exact hsame i (Nat.lt_of_succ_lt_succ hlt)
  refine mt_ext fun j hj => ?_
  induction j using Nat.strongRecOn with
  | ind j ih =>
    have hnext : (if j = 311 then mtRead (twistPass a) 0 else mtRead a (j + 1)) =
        if j = 311 then mtRead (twistPass b) 0 else mtRead b (j + 1) := by
      split
      · exact ih 0 (by omega) (by omega)
      · exact hold (j + 1) (by omega) (by omega)
    have hpartner : (if j < 156 then mtRead a (j + 156) else mtRead (twistPass a) (j - 156)) =
        if j < 156 then mtRead b (j + 156) else mtRead (twistPass b) (j - 156) := by
      split
      · exact hold (j + 156) (by omega) (by omega)
      · exact ih (j - 156) (by omega) (by omega)
    rw [mtRead_twistPass a hj, mtRead_twistPass b hj, hnext, hpartner]
    rcases Nat.eq_zero_or_pos j with rfl | hpos
    · refine twistSlot_congr_high _ _ fun n hn => ?_
      rw [mtRead_eq_getElem a 0 (by omega), mtRead_eq_getElem b 0 (by omega)]
      exact hhigh n hn
    · rw [hold j (by omega) hj]

end Sys2Proof.Machine
end

section
/-! TEMPER: each of its stages is linear and loses no bit (rule R160). -/

namespace Sys2Proof.Machine

/-- A stage that shifts right: `y XOR ((y >> k) AND m)`. -/
def xorShiftRight (k : Nat) (m y : Word) : Word := y ^^^ ((y >>> k) &&& m)

/-- A stage that shifts left: `y XOR ((y << k) AND m)`. -/
def xorShiftLeft (k : Nat) (m y : Word) : Word := y ^^^ ((y <<< k) &&& m)

theorem temperStageA_eq : temperStageA = xorShiftRight 29 temperD := rfl
theorem temperStageB_eq : temperStageB = xorShiftLeft 17 temperB := rfl
theorem temperStageC_eq : temperStageC = xorShiftLeft 37 temperC := rfl

/-- The last stage has no mask. -/
theorem temperStageD_eq : temperStageD = xorShiftRight 43 (BitVec.allOnes 64) := by
  funext y
  rw [temperStageD, xorShiftRight, BitVec.and_allOnes]

/-- TEMPER as the composition of its stages (rule R157). -/
theorem temper_eq_comp : temper =
    xorShiftRight 43 (BitVec.allOnes 64) ∘ xorShiftLeft 37 temperC ∘ xorShiftLeft 17 temperB ∘ xorShiftRight 29 temperD := by
  rw [← temperStageA_eq, ← temperStageB_eq, ← temperStageC_eq, ← temperStageD_eq]
  rfl

/-- A mask is linear. -/
theorem xor_and_distrib (p q m : Word) : (p ^^^ q) &&& m = (p &&& m) ^^^ (q &&& m) := by
  apply BitVec.eq_of_getLsbD_eq
  intro n _
  simp only [BitVec.getLsbD_and, BitVec.getLsbD_xor, Bool.and_xor_distrib_right]

theorem xorShiftRight_xor (k : Nat) (m p q : Word) :
    xorShiftRight k m (p ^^^ q) = xorShiftRight k m p ^^^ xorShiftRight k m q := by
  simp only [xorShiftRight, BitVec.ushiftRight_xor_distrib, xor_and_distrib]
  ac_rfl

theorem xorShiftLeft_xor (k : Nat) (m p q : Word) :
    xorShiftLeft k m (p ^^^ q) = xorShiftLeft k m p ^^^ xorShiftLeft k m q := by
  simp only [xorShiftLeft, BitVec.shiftLeft_xor_distrib, xor_and_distrib]
  ac_rfl

/-- Settles O38: every stage is linear; TEMPER of 0 is evaluated. -/
theorem temperIsLinear : Obligations.TemperIsLinear := by
  refine ⟨by decide, fun p q => ?_⟩
  simp only [temper_eq_comp, Function.comp_apply, xorShiftRight_xor, xorShiftLeft_xor]

/-- A right-shifting stage keeps the top bits, from which the bits below are recovered one after the other. -/
theorem xorShiftRight_injective {k : Nat} (hk : 0 < k) (m : Word) : Function.Injective (xorShiftRight k m) := by
  intro y z h
  have hbits : ∀ d n, 64 ≤ n + d → y.getLsbD n = z.getLsbD n := by
    intro d
    induction d with
    | zero => exact fun n hn => by rw [BitVec.getLsbD_of_ge y n hn, BitVec.getLsbD_of_ge z n hn]
    | succ d ih =>
      intro n hn
      have hbit := congrArg (fun w => w.getLsbD n) h
      simp only [xorShiftRight, BitVec.getLsbD_xor, BitVec.getLsbD_and, BitVec.getLsbD_ushiftRight,
        ih (k + n) (by omega)] at hbit
      exact Bool.xor_left_inj.mp hbit
  exact BitVec.eq_of_getLsbD_eq fun n _ => hbits 64 n (Nat.le_add_left 64 n)

/-- A left-shifting stage keeps the bottom bits, from which the bits above are recovered one after the other. -/
theorem xorShiftLeft_injective {k : Nat} (hk : 0 < k) (m : Word) : Function.Injective (xorShiftLeft k m) := by
  intro y z h
  refine BitVec.eq_of_getLsbD_eq fun n => ?_
  induction n using Nat.strongRecOn with
  | ind n ih =>
    intro hn
    have hbit := congrArg (fun w => w.getLsbD n) h
    have hshifted : (y <<< k).getLsbD n = (z <<< k).getLsbD n := by
      rw [BitVec.getLsbD_shiftLeft, BitVec.getLsbD_shiftLeft]
      by_cases hbelow : n < k
      · simp [hbelow]
      · rw [ih (n - k) (by omega) (by omega)]
    simp only [xorShiftLeft, BitVec.getLsbD_xor, BitVec.getLsbD_and, hshifted] at hbit
    exact Bool.xor_left_inj.mp hbit

/-- Settles O37: each stage is injective, and the words are finitely many. -/
theorem temperIsABijection : Obligations.TemperIsABijection := by
  rw [Obligations.TemperIsABijection, ← Finite.injective_iff_bijective, temper_eq_comp]
  exact (xorShiftRight_injective (by decide) _).comp
    ((xorShiftLeft_injective (by decide) _).comp
      ((xorShiftLeft_injective (by decide) _).comp (xorShiftRight_injective (by decide) _)))

end Sys2Proof.Machine
end

section
/-! Serialization: SAVE's image as a sequence of writes (rule R185) and as the register view (rule R33), and the image map as
a bijection (rules R65, R66). -/

namespace Sys2Proof.Machine

/-- The words of an image that SAVE has laid out so far. -/
def imagePrefix (e : Engine) (k : Nat) : List Byte := (e.mt.toList.take k).flatMap fun w => leBytes 8 w.toNat

theorem imagePrefix_length (e : Engine) {k : Nat} (hk : k ≤ 312) : (imagePrefix e k).length = 8 * k := by
  rw [imagePrefix, flatMap_leBytes_length, List.length_take_of_le (by rw [Vector.length_toList]; exact hk)]

theorem imagePrefix_succ (e : Engine) {k : Nat} (hk : k < 312) :
    imagePrefix e (k + 1) = imagePrefix e k ++ leBytes 8 (mtRead e.mt k).toNat := by
  have hslots : k < e.mt.toList.length := by rw [Vector.length_toList]; exact hk
  rw [imagePrefix, List.take_succ_eq_append_getElem hslots, List.flatMap_append, List.flatMap_singleton,
    Vector.getElem_toList, ← mtRead_eq_getElem e.mt k hk, imagePrefix]

/-- A full image is all words and the index field. -/
theorem saveImage_eq_imagePrefix (e : Engine) : saveImage e = imagePrefix e 312 ++ leBytes 2 e.idx.toNat := by
  rw [imagePrefix, List.take_of_length_le (by rw [Vector.length_toList]), saveImage]

/-- MemWrite behind a part already written replaces the field that follows it. -/
theorem memWrite_append (front back : List Byte) (n v : Nat) :
    memWrite front.length n v (front ++ back) = front ++ leBytes n v ++ back.drop n := by
  rw [memWrite, List.take_left' rfl, List.drop_length_add_append]

/-- Settles O49: before write `k` the words below `k` stand in front of what is left of the starting bytes; the index field
replaces the last two. -/
theorem saveImageIsTheMemWriteSequence : Obligations.SaveImageIsTheMemWriteSequence := by
  intro e start hlen
  have hwords : forUp (fun k img => memWrite (8 * k) 8 (mtRead e.mt k).toNat img) 0 312 start =
      imagePrefix e 312 ++ start.drop 2496 := by
    refine forUp_induct (P := fun k img => img = imagePrefix e k ++ start.drop (8 * k)) _ 0 312 start ?_
      fun k img hk himg => ?_
    · rfl
    · have hfront := imagePrefix_length e hk.le
      rw [himg, Nat.zero_add, ← hfront, memWrite_append, hfront, imagePrefix_succ e hk, List.drop_drop, Nat.mul_succ]
  have hfront : (imagePrefix e 312).length = 2496 := imagePrefix_length e le_rfl
  rw [saveByWrites, hwords, ← hfront, memWrite_append, hfront, List.drop_drop, List.drop_of_length_le (by omega),
    List.append_nil, saveImage_eq_imagePrefix]

/-- Byte `a` of a full image is `SER[a]`. -/
theorem saveImage_getElem?_eq_serByte (e : Engine) {a : Nat} (ha : a < 2498) :
    (saveImage e)[a]? = some (serByte e a) := by
  unfold serByte
  split
  case isTrue hword =>
    have hbyte := saveImage_getElem?_word e (k := a / 8) (b := a % 8) (by omega) (by omega)
    rwa [Nat.div_add_mod, ← mtRead_eq_getElem e.mt (a / 8) (by omega)] at hbyte
  case isFalse hindex =>
    have hbyte := saveImage_getElem?_index e (b := a - 2496) (by omega)
    rwa [Nat.add_sub_cancel' (Nat.le_of_not_lt hindex)] at hbyte

/-- Settles O50: both are 2498 bytes, equal one by one. -/
theorem saveReadsTheSerializationView : Obligations.SaveReadsTheSerializationView := by
  intro e
  apply List.ext_getElem?
  intro a
  rcases Nat.lt_or_ge a 2498 with ha | ha
  · rw [saveImage_getElem?_eq_serByte e ha, List.getElem?_map, List.getElem?_range ha, Option.map_some]
  · rw [List.getElem?_eq_none (by rw [saveImage_length]; exact ha),
      List.getElem?_eq_none (by rw [List.length_map, List.length_range]; exact ha)]

/-- The words of an engine's image are its array. -/
theorem imageWords_saveImage (e : Engine) : imageWords (saveImage e) = e.mt := by
  have hslots : e.mt.toList.length = 312 := Vector.length_toList
  have hwords := leWords_flatMap_append e.mt.toList (leBytes 2 e.idx.toNat)
  rw [hslots] at hwords
  exact Vector.toList_inj.mp hwords

/-- The index field of an engine's image is its cursor. -/
theorem imageIndex_saveImage (e : Engine) : imageIndex (saveImage e) = e.idx.toNat := by
  have hfront : (imagePrefix e 312).length = imgIdxOff := imagePrefix_length e le_rfl
  have hfield : (leBytes 2 e.idx.toNat).length = 2 := leBytes_length 2 _
  rw [imageIndex, memRead, saveImage_eq_imagePrefix, List.drop_left' hfront, List.take_of_length_le hfield.le,
    leValue_leBytes_of_lt e.idx.isLt]

/-- An initialised engine's image is the image of that engine alone. -/
theorem loadedEngine_saveImage {e : Engine} (hinit : e.init = true) : loadedEngine (saveImage e) = e := by
  rw [loadedEngine, imageWords_saveImage, imageIndex_saveImage, BitVec.ofNat_toNat, BitVec.setWidth_eq, ← hinit]

/-- Settles O55: the three cases are SAVE's empty image, a full image with its index in range, and one with index 312. -/
theorem saveThenLoadRoundTrips : Obligations.SaveThenLoadRoundTrips := by
  intro s u hs hu
  cases hinit : s.engine.init with
  | false =>
    refine ⟨[], exec_of_inv hs (.saveEmpty _ hinit), fun _ => ⟨rfl, exec_of_inv hu (.loadEmpty _)⟩, fun h => ?_,
      fun h => ?_⟩
    · cases h
    · cases h
  | true =>
    have hlen := saveImage_length s.engine
    have hindex := imageIndex_saveImage s.engine
    refine ⟨saveImage s.engine, exec_of_inv hs (.save _ hinit), fun h => ?_, fun _ hidx => ?_, fun _ hidx => ?_⟩
    · cases h
    · have hload := exec_of_inv hu (.load _ _ hlen (by omega))
      rwa [loadedEngine_saveImage hinit] at hload
    · exact exec_of_inv hu (.loadIndex _ _ hlen (by omega))

/-- A full operand is its words and its index field. -/
theorem saveImage_loadedEngine {img : List Byte} (hlen : img.length = 2498) : saveImage (loadedEngine img) = img := by
  have hwords : (loadedEngine img).mt.toList = leWords 312 img := rfl
  have hfield : ((img.drop 2496).take 2).length = 2 := by simp [hlen]
  have hindex : leBytes 2 (imageIndex img) = (img.drop 2496).take 2 := leBytes_leValue_of_length hfield
  have hrest : (img.drop 2496).take 2 = img.drop 2496 := List.take_of_length_le (by simp [hlen])
  rw [saveImage, hwords, flatMap_leWords (by omega), loadedEngine_idx_toNat, hindex, hrest, List.take_append_drop]

/-- Settles O56: the loaded engine is initialised, with its cursor in range, and its image is the operand. -/
theorem loadThenSaveGivesTheImageBack : Obligations.LoadThenSaveGivesTheImageBack := by
  intro img s hinv hlen hidx
  rw [← imageIndex_eq] at hidx
  refine ⟨_, exec_of_inv hinv (.load img _ hlen (by omega)), ?_⟩
  have hloaded : (s.answered (loadedEngine img) { status := .ok, payload := .none }).Inv := fun _ => by
    rw [State.answered_engine, loadedEngine_idx_toNat]
    omega
  have hsave := exec_of_inv hloaded (.save _ rfl)
  rwa [State.answered_engine, saveImage_loadedEngine hlen] at hsave

end Sys2Proof.Machine
end

section
/-! Runs of value requests: NEXT64 and NEXT63 in any mix draw on one stream (rule R175), which is the tempered words of the
repeatedly twisted array (rule R176), and is 0 for ever from the all-zero array (rule R249). -/

namespace Sys2Proof.Machine

/-- Settles O42: the value is shifted right by one. -/
theorem next63StaysBelowTwoToThe63 : Obligations.Next63StaysBelowTwoToThe63 := by
  intro s hinv
  have hlt : (nextValue s.engine >>> 1).toNat < 2 ^ 63 := by
    rw [BitVec.toNat_ushiftRight, Nat.shiftRight_eq_div_pow]
    omega
  exact ⟨nextEngine s.engine, nextValue s.engine >>> 1, exec_next63_of_inv hinv, hlt,
    next63Value_getLsbD_63 (nextValue s.engine), BitVec.toInt_eq_toNat_of_lt (by omega)⟩

/-- The response of NEXT64. -/
def valueResponse (e : Engine) : Response := { status := .ok, payload := .word (nextValue e) }

/-- The responses of `n` NEXT64 commands in a row, in their order. -/
def valueResponses (e : Engine) (n : Nat) : List Response := (List.range n).map fun m => valueResponse (nextEngine^[m] e)

theorem valueResponses_succ (e : Engine) (n : Nat) :
    valueResponses e (n + 1) = valueResponse e :: valueResponses (nextEngine e) n := by
  rw [valueResponses, List.range_succ_eq_map, List.map_cons, List.map_map]
  rfl

theorem valueResponses_length (e : Engine) (n : Nat) : (valueResponses e n).length = n := by
  rw [valueResponses, List.length_map, List.length_range]

/-- A request, NEXT63 where `isNext63`, is answered with NEXT64's engine and its value, halved for NEXT63. -/
theorem exec_request_of_inv (isNext63 : Bool) {s : State} (hinv : s.Inv) :
    exec (if isNext63 then .next63 else .next64) s =
      .next (s.answered (nextEngine s.engine) (halvedIf isNext63 (valueResponse s.engine))) := by
  cases isNext63 with
  | false => exact exec_next64_of_inv hinv
  | true => exact exec_next63_of_inv hinv

/-- A value request leaves a cursor in range. -/
theorem inv_answered_nextEngine (s : State) (e : Engine) (r : Response) : (s.answered (nextEngine e) r).Inv := fun _ => by
  rw [State.answered_engine, nextEngine_idx_toNat]
  exact (readyEngine_ready e).2

/-- A step performs the first of the commands presented, with the others presented behind it. -/
theorem step_presenting_cons (s : State) {i : Instr} (cmds : List Instr) (hwf : i.wf = true) :
    step (s.presenting (i :: cmds)) = exec i (s.presenting cmds) :=
  step_of_inbox_eq_encode (s := s.presenting (i :: cmds)) rfl hwf rfl

/-- What a run of requests leaves: the engine of as many NEXT64, and its values, halved for each NEXT63. -/
theorem run_requests (mix : List Bool) {s : State} (hinv : s.Inv) :
    Host.Core.run Sys2Proof.core mix.length (s.presenting (mix.map fun b => if b then .next63 else .next64)) =
      .next {
        engine := nextEngine^[mix.length] s.engine
        inbox := []
        overlap := false
        responses := (List.zipWith halvedIf mix (valueResponses s.engine mix.length)).reverse ++ s.responses } := by
  induction mix generalizing s with
  | nil => rfl
  | cons b mix ih =>
    have hwf : (if b then Instr.next63 else Instr.next64).wf = true := by cases b <;> rfl
    have hstep := step_presenting_cons s (mix.map fun b => if b then Instr.next63 else Instr.next64) hwf
    rw [exec_request_of_inv b (s := s.presenting _) hinv] at hstep
    rw [List.length_cons, List.map_cons, run_succ_of_next _ hstep]
    refine (ih (inv_answered_nextEngine s s.engine (halvedIf b (valueResponse s.engine)))).trans ?_
    rw [valueResponses_succ, List.zipWith_cons_cons, List.reverse_cons, List.append_assoc]
    rfl

theorem halvedIf_false (r : Response) : halvedIf false r = r := rfl

theorem zipWith_halvedIf_replicate_false (rs : List Response) :
    List.zipWith halvedIf (List.replicate rs.length false) rs = rs := by
  induction rs with
  | nil => rfl
  | cons r rs ih => rw [List.length_cons, List.replicate_succ, List.zipWith_cons_cons, ih, halvedIf_false]

/-- What a run of NEXT64 commands leaves. -/
theorem run_next64 (n : Nat) {s : State} (hinv : s.Inv) :
    Host.Core.run Sys2Proof.core n (s.presenting (List.replicate n .next64)) =
      .next {
        engine := nextEngine^[n] s.engine
        inbox := []
        overlap := false
        responses := (valueResponses s.engine n).reverse ++ s.responses } := by
  have hrun := run_requests (List.replicate n false) hinv
  have hvalues := zipWith_halvedIf_replicate_false (valueResponses s.engine n)
  rw [valueResponses_length] at hvalues
  rwa [List.length_replicate, List.map_replicate, hvalues] at hrun

/-- Settles O45: the two runs are `run_requests` for the mix and for NEXT64 alone. -/
theorem mixedRequestsShareOneStream : Obligations.MixedRequestsShareOneStream := fun mix s hinv =>
  ⟨_, _, valueResponses s.engine mix.length, run_requests mix hinv, run_next64 mix.length hinv, rfl,
    valueResponses_length _ _, rfl, rfl⟩

theorem twistIter_succ_of_twistPass (mt : Vector Word 312) (t : Nat) : twistPass (twistIter mt t) = twistIter mt (t + 1) :=
  rfl

/-- The initialised engine that holds array `A_(c div 312)` and cursor `c mod 312` (rule R176). -/
def streamEngine (mt : Vector Word 312) (c : Nat) : Engine :=
  { mt := twistIter mt (c / 312), idx := BitVec.ofNat 16 (c % 312), init := true }

theorem streamEngine_idx_toNat (mt : Vector Word 312) (c : Nat) : (streamEngine mt c).idx.toNat = c % 312 := by
  rw [streamEngine, BitVec.toNat_ofNat]
  omega

/-- An engine with its cursor right behind slot `c mod 312` is made ready at position `c + 1` of the stream. -/
theorem readyEngine_streamEngine_succ (mt : Vector Word 312) (c : Nat) :
    readyEngine { streamEngine mt c with idx := (streamEngine mt c).idx + 1#16 } = streamEngine mt (c + 1) := by
  have hidx : ((streamEngine mt c).idx + 1#16).toNat = c % 312 + 1 := by
    rw [BitVec.toNat_add, streamEngine_idx_toNat, BitVec.toNat_ofNat]
    omega
  rcases Nat.lt_or_ge (c % 312 + 1) 312 with hinside | hend
  · have hmod : (c + 1) % 312 = c % 312 + 1 := by omega
    have hdiv : (c + 1) / 312 = c / 312 := by omega
    rw [readyEngine_of_idx_lt rfl (by rw [hidx]; exact hinside), streamEngine, streamEngine, hmod, hdiv,
      BitVec.ofNat_add]
  · have hmod : (c + 1) % 312 = 0 := by omega
    have hdiv : (c + 1) / 312 = c / 312 + 1 := by omega
    rw [readyEngine_of_exhausted rfl (by rw [hidx]; exact hend), twistBody, streamEngine, streamEngine, hmod, hdiv,
      twistIter_succ_of_twistPass]

/-- An initialised engine with its cursor in range is made ready at the stream's position of its cursor. -/
theorem readyEngine_eq_streamEngine {e : Engine} (hinit : e.init = true) (hidx : e.idx.toNat ≤ 312) :
    readyEngine e = streamEngine e.mt e.idx.toNat := by
  rcases Nat.lt_or_eq_of_le hidx with hlt | hend
  · rw [readyEngine_of_idx_lt hinit hlt, streamEngine, Nat.mod_eq_of_lt hlt, Nat.div_eq_of_lt hlt, BitVec.ofNat_toNat,
      BitVec.setWidth_eq, ← hinit]
    rfl
  · rw [readyEngine_of_exhausted hinit hend.ge, twistBody, hinit, streamEngine, hend]
    rfl

section

variable {e : Engine} (hinit : e.init = true) (hidx : e.idx.toNat ≤ 312)

include hinit hidx

/-- Request number `m` is answered from the stream's position `m` behind the cursor (rule R176). -/
theorem readyEngine_iterate (m : Nat) :
    readyEngine (nextEngine^[m] e) = streamEngine e.mt (e.idx.toNat + m) := by
  induction m with
  | zero => exact readyEngine_eq_streamEngine hinit hidx
  | succ m ih => rw [Function.iterate_succ_apply', nextEngine, ih, readyEngine_streamEngine_succ, Nat.add_assoc]

/-- The value of request number `m` (rule R176). -/
theorem nextValue_iterate (m : Nat) :
    nextValue (nextEngine^[m] e) =
      temper ((twistIter e.mt ((e.idx.toNat + m) / 312))[(e.idx.toNat + m) % 312]'(Nat.mod_lt _ (by decide))) := by
  rw [nextValue, readyEngine_iterate hinit hidx, streamEngine_idx_toNat, mtRead_eq_getElem _ _ (Nat.mod_lt _ (by decide))]
  rfl

/-- The engine that request number `m` leaves (rule R176). -/
theorem nextEngine_iterate_succ (m : Nat) :
    nextEngine^[m + 1] e =
      { mt := twistIter e.mt ((e.idx.toNat + m) / 312)
        idx := BitVec.ofNat 16 ((e.idx.toNat + m) % 312 + 1)
        init := true } := by
  rw [Function.iterate_succ_apply', nextEngine, readyEngine_iterate hinit hidx, streamEngine, BitVec.ofNat_add]

end

/-- Settles O44: the run's responses and engine, read off the stream. -/
theorem valueStreamIsTheTwistedArrays : Obligations.ValueStreamIsTheTwistedArrays := by
  intro n s hinit hidx
  refine ⟨_, run_next64 n fun _ => hidx, rfl, ?responses, fun hn => ?noRequest, fun hn => ?engine⟩
  case responses => simp only [valueResponses, valueResponse, nextValue_iterate hinit hidx]
  case noRequest => rw [hn, Function.iterate_zero_apply]
  case engine =>
    obtain ⟨m, rfl⟩ := Nat.exists_eq_succ_of_ne_zero hn.ne'
    exact nextEngine_iterate_succ hinit hidx m

/-! ### The all-zero array -/

theorem leValue_replicate_zero (n : Nat) : leValue (List.replicate n 0#8) = 0 := by
  induction n with
  | zero => rfl
  | succ n ih => rw [List.replicate_succ, leValue, ih]; rfl

/-- Every field of an image of zero bytes is 0. -/
theorem memRead_replicate_zero (len addr n : Nat) : memRead (List.replicate len 0#8) addr n = 0 := by
  rw [memRead, List.drop_replicate, List.take_replicate, leValue_replicate_zero]

theorem mtRead_replicate (w : Word) {k : Nat} (hk : k < 312) : mtRead (Vector.replicate 312 w) k = w := by
  rw [mtRead_eq_getElem _ k hk, Vector.getElem_replicate]

/-- The engine of the image of zero bytes. -/
theorem loadedEngine_replicate_zero (len : Nat) :
    loadedEngine (List.replicate len 0#8) = { mt := Vector.replicate 312 0#64, idx := 0#16, init := true } := by
  have hwords : imageWords (List.replicate len 0#8) = Vector.replicate 312 0#64 := by
    refine mt_ext fun k hk => ?_
    rw [imageWords_read _ k hk, memRead_replicate_zero, mtRead_replicate _ hk]
  rw [loadedEngine, hwords, imageIndex, memRead_replicate_zero]

theorem xorMt_self (mt : Vector Word 312) : xorMt mt mt = Vector.replicate 312 0#64 := by
  refine mt_ext fun k hk => ?_
  rw [mtRead_xorMt _ _ hk, BitVec.xor_self, mtRead_replicate _ hk]

/-- TWIST keeps the all-zero array, as every linear map does. -/
theorem twistPass_replicate_zero : twistPass (Vector.replicate 312 0#64) = Vector.replicate 312 0#64 := by
  rw [← xorMt_self (Vector.replicate 312 0#64), twistIsLinear, xorMt_self, xorMt_self]

theorem twistIter_replicate_zero (t : Nat) : twistIter (Vector.replicate 312 0#64) t = Vector.replicate 312 0#64 := by
  induction t with
  | zero => rfl
  | succ t ih => rw [twistIter, ih, twistPass_replicate_zero]

/-- Settles O46: every array of the stream is all zero, and TEMPER of 0 is 0. -/
theorem allZeroArrayGivesZeroForEver : Obligations.AllZeroArrayGivesZeroForEver := by
  refine ⟨fun s hinv => ?load, fun n s hmt hinit hidx => ?run⟩
  case load =>
    have hlen : (List.replicate 2498 0#8).length = 2498 := List.length_replicate
    have hindex : imageIndex (List.replicate 2498 0#8) = 0 := memRead_replicate_zero 2498 imgIdxOff 2
    have hload := exec_of_inv hinv (.load _ s.engine hlen (by omega))
    rwa [loadedEngine_replicate_zero] at hload
  case run =>
    obtain ⟨t, hrun, -, hresponses, hnone, hsome⟩ := valueStreamIsTheTwistedArrays n s hinit hidx
    refine ⟨t, hrun, ?array, ?values⟩
    case array =>
      rcases Nat.eq_zero_or_pos n with hn | hn
      · rw [hnone hn, hmt]
      · rw [hsome hn, hmt, twistIter_replicate_zero]
    case values =>
      rw [hresponses]
      simp only [hmt, twistIter_replicate_zero, Vector.getElem_replicate, temperIsLinear.1, List.map_const',
        List.length_range, List.reverse_replicate]

end Sys2Proof.Machine
end
